-- ==== Sys2Proof/Word.lean ====
section
/-! DEFINITION. The widths of the values the block computes with (spec/00_scope.md R9, R10): every one of them is unsigned. -/

namespace Sys2Proof

/-- A general register, a timer, a memory location, an immediate NN: 8 bits (R9, R18, R45). -/
abbrev Byte := BitVec 8

/-- An instruction word, PC, I, a stack entry: 16 bits (R9, R21, R22, R25). -/
abbrev Word := BitVec 16

/-- A register index X or Y, the sprite height N, a key number: 4 bits (R16, R68). -/
abbrev Nibble := BitVec 4

/-- The address operand NNN: 12 bits (R68). -/
abbrev Addr12 := BitVec 12

end Sys2Proof
end

