-- ==== Sys2Proof/Syntax.lean ====
section
/-! DEFINITION. The instructions: one constructor for each row of spec/opcode_table.json (spec/30_encoding.md R69 to R77). -/

namespace Sys2Proof

/-- The 35 instructions. Operands are the fields of R68 and R70; SHR and SHL keep the ignored Y (R79) so that no bit of a word is lost. -/
inductive Instr where
  /-- 00E0 CLS (R95). -/
  | cls
  /-- 00EE RET (R103). -/
  | ret
  /-- 0NNN SYS addr, NNN neither 0E0 nor 0EE (R108). -/
  | sys (nnn : Addr12)
  /-- 1NNN JP addr (R100). -/
  | jp (nnn : Addr12)
  /-- 2NNN CALL addr (R102). -/
  | call (nnn : Addr12)
  /-- 3XNN SE Vx, byte (R104). -/
  | seByte (x : Nibble) (nn : Byte)
  /-- 4XNN SNE Vx, byte (R105). -/
  | sneByte (x : Nibble) (nn : Byte)
  /-- 5XY0 SE Vx, Vy (R106). -/
  | seReg (x y : Nibble)
  /-- 6XNN LD Vx, byte (R82). -/
  | ldByte (x : Nibble) (nn : Byte)
  /-- 7XNN ADD Vx, byte (R83). -/
  | addByte (x : Nibble) (nn : Byte)
  /-- 8XY0 LD Vx, Vy (R84). -/
  | ldReg (x y : Nibble)
  /-- 8XY1 OR Vx, Vy (R85). -/
  | orReg (x y : Nibble)
  /-- 8XY2 AND Vx, Vy (R86). -/
  | andReg (x y : Nibble)
  /-- 8XY3 XOR Vx, Vy (R87). -/
  | xorReg (x y : Nibble)
  /-- 8XY4 ADD Vx, Vy (R88). -/
  | addReg (x y : Nibble)
  /-- 8XY5 SUB Vx, Vy (R89). -/
  | subReg (x y : Nibble)
  /-- 8XY6 SHR Vx, the word's Y ignored (R90). -/
  | shr (x y : Nibble)
  /-- 8XY7 SUBN Vx, Vy (R91). -/
  | subnReg (x y : Nibble)
  /-- 8XYE SHL Vx, the word's Y ignored (R92). -/
  | shl (x y : Nibble)
  /-- 9XY0 SNE Vx, Vy (R107). -/
  | sneReg (x y : Nibble)
  /-- ANNN LD I, addr (R117). -/
  | ldI (nnn : Addr12)
  /-- BNNN JP V0, addr (R101). -/
  | jpV0 (nnn : Addr12)
  /-- CXNN RND Vx, byte (R93). -/
  | rnd (x : Nibble) (nn : Byte)
  /-- DXYN DRW Vx, Vy, n (R96). -/
  | drw (x y n : Nibble)
  /-- EX9E SKP Vx (R113). -/
  | skp (x : Nibble)
  /-- EXA1 SKNP Vx (R114). -/
  | sknp (x : Nibble)
  /-- FX07 LD Vx, DT (R110). -/
  | ldVxDt (x : Nibble)
  /-- FX0A LD Vx, K (R115). -/
  | ldVxK (x : Nibble)
  /-- FX15 LD DT, Vx (R111). -/
  | ldDtVx (x : Nibble)
  /-- FX18 LD ST, Vx (R112). -/
  | ldStVx (x : Nibble)
  /-- FX1E ADD I, Vx (R118). -/
  | addIVx (x : Nibble)
  /-- FX29 LD F, Vx (R119). -/
  | ldFVx (x : Nibble)
  /-- FX33 LD B, Vx (R120). -/
  | ldBVx (x : Nibble)
  /-- FX55 LD [I], Vx (R121). -/
  | storeRegs (x : Nibble)
  /-- FX65 LD Vx, [I] (R122). -/
  | loadRegs (x : Nibble)
  deriving DecidableEq, Repr

end Sys2Proof
end

