-- ==== Sys2Proof/WellFormed.lean ====
section
/-! DEFINITION. Which terms of `Instr` are instructions of the block. The operand types already bound every field (R68), so one check is left. -/

namespace Sys2Proof

/-- The op-0 words 00E0 and 00EE are CLS and RET, never SYS (R72, R108). -/
def sysOperandOk (nnn : Addr12) : Bool := nnn != 0x0E0 && nnn != 0x0EE

/-- An instruction some word of the opcode map decodes to (R72 to R77). -/
def wellFormed : Instr → Bool
  | .cls | .ret => true
  | .sys nnn => sysOperandOk nnn
  | .jp _ | .call _ | .ldI _ | .jpV0 _ => true
  | .seByte _ _ | .sneByte _ _ | .ldByte _ _ | .addByte _ _ | .rnd _ _ => true
  | .seReg _ _ | .sneReg _ _ | .ldReg _ _ | .orReg _ _ | .andReg _ _ | .xorReg _ _ => true
  | .addReg _ _ | .subReg _ _ | .shr _ _ | .subnReg _ _ | .shl _ _ => true
  | .drw _ _ _ => true
  | .skp _ | .sknp _ | .ldVxDt _ | .ldVxK _ | .ldDtVx _ | .ldStVx _ => true
  | .addIVx _ | .ldFVx _ | .ldBVx _ | .storeRegs _ | .loadRegs _ => true

end Sys2Proof
end

