-- ==== Sys2Proof/Decode.lean ====
section
/-! DEFINITION. Decoding and encoding (spec/30_encoding.md R67 to R79): a total decoder that rejects an illegal word by name, and the encoder written
from the same patterns of R69. -/

namespace Sys2Proof

/-- Why bytes are no instruction: the five classes of illegal words of R78, and too few bytes for a word (R67). -/
inductive DecodeError where
  /-- 5XYN with N other than 0. -/
  | illegalOp5 (w : Word)
  /-- 8XYN with N in 8 to D, or F. -/
  | illegalOp8 (w : Word)
  /-- 9XYN with N other than 0. -/
  | illegalOp9 (w : Word)
  /-- EXNN with NN other than 9E and A1. -/
  | illegalOpE (w : Word)
  /-- FXNN with NN none of the nine of R77. -/
  | illegalOpF (w : Word)
  /-- Fewer than two bytes. -/
  | truncated
  deriving DecidableEq, Repr

/-- op = w[15:12] (R68). -/
def fieldOp (w : Word) : Nibble := w.extractLsb' 12 4
/-- X = w[11:8] (R68). -/
def fieldX (w : Word) : Nibble := w.extractLsb' 8 4
/-- Y = w[7:4] (R68). -/
def fieldY (w : Word) : Nibble := w.extractLsb' 4 4
/-- N = w[3:0] (R68). -/
def fieldN (w : Word) : Nibble := w.extractLsb' 0 4
/-- NN = w[7:0] (R68). -/
def fieldNN (w : Word) : Byte := w.extractLsb' 0 8
/-- NNN = w[11:0] (R68). -/
def fieldNNN (w : Word) : Addr12 := w.extractLsb' 0 12

/-- op 0: the whole word decides (R72). Under D5 no op-0 word is illegal at decode (log 1). -/
def decodeOp0 (w : Word) : Instr :=
  if w = 0x00E0 then .cls else if w = 0x00EE then .ret else .sys (fieldNNN w)

/-- op 8: N decides (R75). -/
def decodeOp8 (w : Word) : Except DecodeError Instr :=
  let x := fieldX w
  let y := fieldY w
  if fieldN w = 0x0 then .ok (.ldReg x y)
  else if fieldN w = 0x1 then .ok (.orReg x y)
  else if fieldN w = 0x2 then .ok (.andReg x y)
  else if fieldN w = 0x3 then .ok (.xorReg x y)
  else if fieldN w = 0x4 then .ok (.addReg x y)
  else if fieldN w = 0x5 then .ok (.subReg x y)
  else if fieldN w = 0x6 then .ok (.shr x y)
  else if fieldN w = 0x7 then .ok (.subnReg x y)
  else if fieldN w = 0xE then .ok (.shl x y)
  else .error (.illegalOp8 w)

/-- op E: NN decides (R76). -/
def decodeOpE (w : Word) : Except DecodeError Instr :=
  if fieldNN w = 0x9E then .ok (.skp (fieldX w))
  else if fieldNN w = 0xA1 then .ok (.sknp (fieldX w))
  else .error (.illegalOpE w)

/-- op F: NN decides (R77). -/
def decodeOpF (w : Word) : Except DecodeError Instr :=
  let x := fieldX w
  if fieldNN w = 0x07 then .ok (.ldVxDt x)
  else if fieldNN w = 0x0A then .ok (.ldVxK x)
  else if fieldNN w = 0x15 then .ok (.ldDtVx x)
  else if fieldNN w = 0x18 then .ok (.ldStVx x)
  else if fieldNN w = 0x1E then .ok (.addIVx x)
  else if fieldNN w = 0x29 then .ok (.ldFVx x)
  else if fieldNN w = 0x33 then .ok (.ldBVx x)
  else if fieldNN w = 0x55 then .ok (.storeRegs x)
  else if fieldNN w = 0x65 then .ok (.loadRegs x)
  else .error (.illegalOpF w)

/-- Decode one word: op first, then the secondary field where opcodes alias (R71 to R77). -/
def decodeWord (w : Word) : Except DecodeError Instr :=
  let x := fieldX w
  let y := fieldY w
  match fieldOp w with
  | 0x0#4 => .ok (decodeOp0 w)
  | 0x1#4 => .ok (.jp (fieldNNN w))
  | 0x2#4 => .ok (.call (fieldNNN w))
  | 0x3#4 => .ok (.seByte x (fieldNN w))
  | 0x4#4 => .ok (.sneByte x (fieldNN w))
  | 0x5#4 => if fieldN w = 0x0 then .ok (.seReg x y) else .error (.illegalOp5 w)
  | 0x6#4 => .ok (.ldByte x (fieldNN w))
  | 0x7#4 => .ok (.addByte x (fieldNN w))
  | 0x8#4 => decodeOp8 w
  | 0x9#4 => if fieldN w = 0x0 then .ok (.sneReg x y) else .error (.illegalOp9 w)
  | 0xA#4 => .ok (.ldI (fieldNNN w))
  | 0xB#4 => .ok (.jpV0 (fieldNNN w))
  | 0xC#4 => .ok (.rnd x (fieldNN w))
  | 0xD#4 => .ok (.drw x y (fieldN w))
  | 0xE#4 => decodeOpE w
  | _ => decodeOpF w

/-- The big-endian word of two bytes, the byte at the lower address first (R10, R49). -/
def wordOfBytes (hi lo : Byte) : Word := hi ++ lo

/-- Decode the first instruction of a byte sequence and give the bytes after it; every instruction is two bytes (R67). -/
def decode : List Byte → Except DecodeError (Instr × List Byte)
  | hi :: lo :: rest => (decodeWord (wordOfBytes hi lo)).map (fun i => (i, rest))
  | _ => .error .truncated

/-- Format FA: `oooo aaaa aaaa aaaa` (R69). -/
def formatFA (op : Nibble) (nnn : Addr12) : Word := op ++ nnn
/-- Format FXK: `oooo xxxx kkkk kkkk` (R69). -/
def formatFXK (op x : Nibble) (nn : Byte) : Word := op ++ x ++ nn
/-- Formats FXY and FXYN: `oooo xxxx yyyy nnnn`, the last nibble fixed in FXY (R69). -/
def formatFXYN (op x y n : Nibble) : Word := op ++ x ++ y ++ n

/-- The word of an instruction, from the patterns of R69 and R72 to R77. -/
def encode : Instr → Word
  | .cls => 0x00E0
  | .ret => 0x00EE
  | .sys nnn => formatFA 0x0 nnn
  | .jp nnn => formatFA 0x1 nnn
  | .call nnn => formatFA 0x2 nnn
  | .seByte x nn => formatFXK 0x3 x nn
  | .sneByte x nn => formatFXK 0x4 x nn
  | .seReg x y => formatFXYN 0x5 x y 0x0
  | .ldByte x nn => formatFXK 0x6 x nn
  | .addByte x nn => formatFXK 0x7 x nn
  | .ldReg x y => formatFXYN 0x8 x y 0x0
  | .orReg x y => formatFXYN 0x8 x y 0x1
  | .andReg x y => formatFXYN 0x8 x y 0x2
  | .xorReg x y => formatFXYN 0x8 x y 0x3
  | .addReg x y => formatFXYN 0x8 x y 0x4
  | .subReg x y => formatFXYN 0x8 x y 0x5
  | .shr x y => formatFXYN 0x8 x y 0x6
  | .subnReg x y => formatFXYN 0x8 x y 0x7
  | .shl x y => formatFXYN 0x8 x y 0xE
  | .sneReg x y => formatFXYN 0x9 x y 0x0
  | .ldI nnn => formatFA 0xA nnn
  | .jpV0 nnn => formatFA 0xB nnn
  | .rnd x nn => formatFXK 0xC x nn
  | .drw x y n => formatFXYN 0xD x y n
  | .skp x => formatFXK 0xE x 0x9E
  | .sknp x => formatFXK 0xE x 0xA1
  | .ldVxDt x => formatFXK 0xF x 0x07
  | .ldVxK x => formatFXK 0xF x 0x0A
  | .ldDtVx x => formatFXK 0xF x 0x15
  | .ldStVx x => formatFXK 0xF x 0x18
  | .addIVx x => formatFXK 0xF x 0x1E
  | .ldFVx x => formatFXK 0xF x 0x29
  | .ldBVx x => formatFXK 0xF x 0x33
  | .storeRegs x => formatFXK 0xF x 0x55
  | .loadRegs x => formatFXK 0xF x 0x65

/-- The byte at the lower address: bits 15:8 (R49). -/
def highByte (w : Word) : Byte := w.extractLsb' 8 8
/-- The byte at the higher address: bits 7:0 (R49). -/
def lowByte (w : Word) : Byte := w.extractLsb' 0 8

/-- The two bytes of an instruction as memory holds them, high byte first (R49). -/
def encodeBytes (i : Instr) : List Byte := [highByte (encode i), lowByte (encode i)]

/-- The (match, mask) pair of an instruction's row of spec/opcode_table.json, copied from the table and not computed from `encode`. -/
def tableRow : Instr → Word × Word
  | .cls => (0x00E0, 0xFFFF)
  | .ret => (0x00EE, 0xFFFF)
  | .sys _ => (0x0000, 0xF000)
  | .jp _ => (0x1000, 0xF000)
  | .call _ => (0x2000, 0xF000)
  | .seByte _ _ => (0x3000, 0xF000)
  | .sneByte _ _ => (0x4000, 0xF000)
  | .seReg _ _ => (0x5000, 0xF00F)
  | .ldByte _ _ => (0x6000, 0xF000)
  | .addByte _ _ => (0x7000, 0xF000)
  | .ldReg _ _ => (0x8000, 0xF00F)
  | .orReg _ _ => (0x8001, 0xF00F)
  | .andReg _ _ => (0x8002, 0xF00F)
  | .xorReg _ _ => (0x8003, 0xF00F)
  | .addReg _ _ => (0x8004, 0xF00F)
  | .subReg _ _ => (0x8005, 0xF00F)
  | .shr _ _ => (0x8006, 0xF00F)
  | .subnReg _ _ => (0x8007, 0xF00F)
  | .shl _ _ => (0x800E, 0xF00F)
  | .sneReg _ _ => (0x9000, 0xF00F)
  | .ldI _ => (0xA000, 0xF000)
  | .jpV0 _ => (0xB000, 0xF000)
  | .rnd _ _ => (0xC000, 0xF000)
  | .drw _ _ _ => (0xD000, 0xF000)
  | .skp _ => (0xE09E, 0xF0FF)
  | .sknp _ => (0xE0A1, 0xF0FF)
  | .ldVxDt _ => (0xF007, 0xF0FF)
  | .ldVxK _ => (0xF00A, 0xF0FF)
  | .ldDtVx _ => (0xF015, 0xF0FF)
  | .ldStVx _ => (0xF018, 0xF0FF)
  | .addIVx _ => (0xF01E, 0xF0FF)
  | .ldFVx _ => (0xF029, 0xF0FF)
  | .ldBVx _ => (0xF033, 0xF0FF)
  | .storeRegs _ => (0xF055, 0xF0FF)
  | .loadRegs _ => (0xF065, 0xF0FF)

/-- The word that `nbits` bits `w` of the opcode table's numbering stand for: bit 0 the least significant bit of the first word, every bit from
`nbits` on 0. -/
def tableWord (nbits w : Nat) : Word := BitVec.ofNat 16 (w % 2 ^ nbits)

/-- What the decoder reads from the bytes of `tableWord nbits w` laid out big-endian (R49). -/
def decodeTableWord (nbits w : Nat) : Option Instr :=
  match decode [highByte (tableWord nbits w), lowByte (tableWord nbits w)] with
  | .ok (i, _) => some i
  | .error _ => none

end Sys2Proof
end

