-- ==== Sys2Proof/Config.lean ====
section
/-! DEFINITION. The implementation parameters of spec/00_scope.md R9, and the one free value of the spec (the CXNN draw, R93). -/

namespace Sys2Proof

/-- MEM_SIZE: addresses 0x000 to 0xFFF (R9, R45). -/
abbrev Config.memSize : Nat := 4096

/-- PROGRAM_BASE: the reset value of PC and the address an image is loaded at (R9, R54). -/
abbrev Config.programBase : Nat := 0x200

/-- MAX_IMAGE: the longest image `load` accepts, 4096 - 512 bytes (R9, R148). -/
abbrev Config.maxImage : Nat := 3584

/-- STACK_DEPTH: the capacity of the call stack (R9, R25). -/
abbrev Config.stackDepth : Nat := 16

/-- FONT_BASE: where the glyph of digit 0 stands (R9, R55; D13; log 2). -/
abbrev Config.fontBase : Nat := 0x000

/-- FONT_DATA: the 80 bytes of the sixteen glyphs, five bytes each, as the table of R55 lists them (D13; log 2). -/
def Config.fontData : List Byte :=
  [0xF0, 0x90, 0x90, 0x90, 0xF0] ++   -- 0
  [0x20, 0x60, 0x20, 0x20, 0x70] ++   -- 1
  [0xF0, 0x10, 0xF0, 0x80, 0xF0] ++   -- 2
  [0xF0, 0x10, 0xF0, 0x10, 0xF0] ++   -- 3
  [0x90, 0x90, 0xF0, 0x10, 0x10] ++   -- 4
  [0xF0, 0x80, 0xF0, 0x10, 0xF0] ++   -- 5
  [0xF0, 0x80, 0xF0, 0x90, 0xF0] ++   -- 6
  [0xF0, 0x10, 0x20, 0x40, 0x40] ++   -- 7
  [0xF0, 0x90, 0xF0, 0x90, 0xF0] ++   -- 8
  [0xF0, 0x90, 0xF0, 0x10, 0xF0] ++   -- 9
  [0xF0, 0x90, 0xF0, 0x90, 0x90] ++   -- A
  [0xE0, 0x90, 0xE0, 0x90, 0xE0] ++   -- B
  [0xF0, 0x80, 0x80, 0x80, 0xF0] ++   -- C
  [0xE0, 0x90, 0x90, 0x90, 0xE0] ++   -- D
  [0xF0, 0x80, 0xF0, 0x80, 0xF0] ++   -- E
  [0xF0, 0x80, 0xF0, 0x80, 0x80]      -- F

/-- The values SYS_POLICY admits (R9, R108; D5). -/
inductive SysPolicy where
  /-- SYS only advances PC. -/
  | nop
  /-- SYS raises IllegalInstruction. -/
  | fault
  deriving DecidableEq, Repr

/-- SYS_POLICY has the value `Nop` (R9; D5; log 1). What SYS does under either value is `Machine.sysUnder`. -/
def Config.sysPolicy : SysPolicy := .nop

/-- TIMER_HZ: how many ticks the host owes the block in one second of simulated time (R9, R135). The model counts ticks, not time (log 10). -/
abbrev Config.timerHz : Nat := 60

/-- IPS: OPEN in R9 (D28), so it has no value here. No rule of the spec depends on it (R153), and nothing in the model reads it (log 10). -/
opaque Config.ips : Nat

/-- `Draw8()` of R12 and R93: the byte the n-th CXNN draws. It has no body that Lean can see, so what is proved of a draw holds for every
byte (D29; log 3). -/
opaque Config.freeByte : Nat → Byte

end Sys2Proof
end

