-- ==== Sys2Proof/Machine/State.lean ====
section
/-! DEFINITION. The state of the block (spec/10_state.md), as plain data, and its value at power-on (R37, R149). -/

namespace Sys2Proof.Machine

/-- The fault kinds of R123. They are part of the state: a fault is taken, and the machine halts with a record of it (R125). -/
inductive FaultKind where
  /-- The fetched word matches no instruction, or SYS under SYS_POLICY = Fault. -/
  | illegalInstruction
  /-- A byte address at or above 4096: fetch, DXYN, FX33, FX55, FX65. -/
  | outOfBounds
  /-- A register index outside 0 to 15: no instruction can produce one (R20; log 7). -/
  | invalidRegister
  /-- CALL with 16 entries in use. -/
  | stackOverflow
  /-- RET with no entry in use. -/
  | stackUnderflow
  /-- PC odd at fetch. -/
  | misalignedFetch
  /-- EX9E, EXA1 or FX29 with V[X] above 15. -/
  | operandRange
  deriving DecidableEq, Repr

/-- The fault record of R33. -/
structure FaultRecord where
  /-- The kind; `FaultKind.code` gives its 3-bit code. -/
  kind : FaultKind
  /-- The address of the instruction whose step faulted. -/
  pc : Word
  /-- The instruction word; none when the fetch itself faulted. -/
  word : Option Word
  /-- What R33 gives for the kind. -/
  detail : Word
  deriving DecidableEq, Repr

/-- The run state of R32. The fault record of R35 lives in `halted` (log 5). -/
inductive RunState where
  /-- The next step executes an instruction. -/
  | running
  /-- FX0A with register index x waits for a key press. -/
  | awaitingKey (x : Nibble)
  /-- A fault was raised; only `load` leaves this state. -/
  | halted (f : FaultRecord)
  deriving DecidableEq, Repr

/-- The 64 by 32 grid of single-bit pixels, FB[x][y] with x the column (R30). -/
abbrev Framebuffer := Vector (Vector Bool 32) 64

/-- Memory: the bytes that differ from their value at reset, by rising address (log 8). -/
abbrev Memory := List Host.Cell

/-- Everything the spec gives the machine (R18 to R37), and `draws`, the model's own counter of CXNN draws (log 3). -/
structure State where
  /-- V0 to VF (R18, R19). -/
  v : Vector Byte 16
  /-- The index register I (R21). -/
  i : Word
  /-- The program counter (R22). -/
  pc : Word
  /-- The entries of the call stack (R25). -/
  stack : Vector Word 16
  /-- SP, the number of entries in use, 0 to 16 (R25). -/
  sp : Fin 17
  /-- The delay timer (R28). -/
  dt : Byte
  /-- The sound timer (R29). -/
  st : Byte
  /-- The framebuffer (R30). -/
  fb : Framebuffer
  /-- The keypad: Key[k] true when key k is pressed (R31). -/
  key : Vector Bool 16
  /-- The run state with its fault record (R32, R33). -/
  run : RunState
  /-- Memory (R45). -/
  mem : Memory
  /-- How many CXNN draws have been taken: the model's own field (R34, R93; log 3). -/
  draws : Nat
  deriving DecidableEq, Repr

/-- Reasons for a step to stop the model. THERE ARE NONE: every fault the spec names has an entry the spec describes (R125), so it is taken as a
next state that is `halted`, and a step of a halted or waiting machine changes nothing (R65, R127; log 4). Nobody raises one. -/
inductive Fault where
  deriving DecidableEq, Repr

/-- Reasons to give an instruction no meaning. -/
inductive Refusal where
  /-- An instruction not modelled yet, by its mnemonic. Raised by nobody: every arm of `exec` has a meaning. It would be safe. -/
  | notModelled (mnemonic : String)
  deriving DecidableEq, Repr

/-- The machine at power-on, which is the state after `load` of an empty image (R37, R147, R149). -/
def State.reset : State where
  v := Vector.replicate 16 0
  i := 0
  pc := 0x200
  stack := Vector.replicate 16 0
  sp := 0
  dt := 0
  st := 0
  fb := Vector.replicate 64 (Vector.replicate 32 false)
  key := Vector.replicate 16 false
  run := .running
  mem := []
  draws := 0

end Sys2Proof.Machine
end

