-- ==== Sys2Proof/Machine/Ops.lean ====
section
/-! DEFINITION. The named operations over registers, stack, memory and framebuffer, taking a fault, and fetching (spec/10_state.md,
spec/20_memory.md, spec/30_encoding.md R64, spec/60_exceptions.md R123 to R126). -/

namespace Sys2Proof.Machine

/-! ### Registers -/

/-- Read V[x] (R11, R18). -/
def State.reg (s : State) (x : Nibble) : Byte := s.v[x.toNat]'x.isLt

/-- `V[x] <- b` (R11, R18). No register is hardwired. -/
def State.setReg (s : State) (x : Nibble) (b : Byte) : State :=
  { s with v := s.v.set x.toNat b x.isLt }

/-! ### Program counter -/

/-- The state at the start of the execute phase: PC holds the instruction's address + 2, modulo 2^16 (R22, R24, R64). -/
def State.advance (s : State) : State := { s with pc := s.pc + 2 }

/-- `pc <- target` (R11). -/
def State.jump (s : State) (target : Word) : State := { s with pc := target }

/-- The extra advance of a conditional skip (R16, R24, R104). -/
def State.skipIf (s : State) (c : Bool) : State := if c then { s with pc := s.pc + 2 } else s

/-! ### Call stack -/

/-- `Push(w)`, or none when 16 entries are in use (R26). -/
def State.push (s : State) (w : Word) : Option State :=
  if h : s.sp.val < 16 then
    some { s with stack := s.stack.set s.sp.val w h, sp := ⟨s.sp.val + 1, by omega⟩ }
  else none

/-- `Pop()`: the popped entry and the state after it, or none when no entry is in use (R27). Entries at or above SP keep their contents. -/
def State.pop (s : State) : Option (Word × State) :=
  if h : 0 < s.sp.val then
    some (s.stack[s.sp.val - 1]'(by omega), { s with sp := ⟨s.sp.val - 1, by omega⟩ })
  else none

/-! ### Memory -/

/-- The byte an address holds after reset, before any write: the font at FONT_BASE, zero elsewhere (R37, R54, R55, R147; log 8). -/
def Memory.initial (a : Nat) : Byte :=
  if Config.fontBase ≤ a then Config.fontData.getD (a - Config.fontBase) 0 else 0

/-- `mem[a]` (R46). The bound check is `rangeFault`. -/
def Memory.read : Memory → Nat → Byte
  | [], a => Memory.initial a
  | (k, b) :: m, a => if k = a then b else Memory.read m a

/-- List `b` at address `a`, keeping the addresses in rising order. -/
def Memory.put : Memory → Nat → Byte → Memory
  | [], a, b => [(a, b)]
  | (k, c) :: m, a, b =>
    if a < k then (a, b) :: (k, c) :: m else if a = k then (a, b) :: m else (k, c) :: Memory.put m a b

/-- Take address `a` out of the list. -/
def Memory.drop : Memory → Nat → Memory
  | [], _ => []
  | (k, c) :: m, a => if k = a then Memory.drop m a else (k, c) :: Memory.drop m a

/-- `mem[a] <- b` (R46): a byte that equals the reset contents is not listed. -/
def Memory.write (m : Memory) (a : Nat) (b : Byte) : Memory :=
  if b = Memory.initial a then Memory.drop m a else Memory.put m a b

/-- Write consecutive bytes from address `a` on (R47, R146). -/
def Memory.writeBytes : Memory → Nat → List Byte → Memory
  | m, _, [] => m
  | m, a, b :: bs => Memory.writeBytes (Memory.write m a b) (a + 1) bs

/-- The canonical form: addresses strictly rising and below 4096, no entry equal to what an unlisted address reads as. -/
abbrev Memory.wf (m : Memory) : Prop :=
  List.Pairwise (fun c d : Host.Cell => c.1 < d.1) m ∧ ∀ c ∈ m, c.1 < Config.memSize ∧ c.2 ≠ Memory.initial c.1

/-- The bound check of an access to the n bytes from `base` on: the lowest address at or above 4096, if the access has one (R46, R47, R48, R63). -/
def rangeFault (base n : Nat) : Option Word :=
  if n = 0 ∨ base + n ≤ Config.memSize then none else some (BitVec.ofNat 16 (max base Config.memSize))

/-! ### Framebuffer -/

/-- FB[x][y] (R30). -/
def Framebuffer.pixel (fb : Framebuffer) (x : Fin 64) (y : Fin 32) : Bool := (fb.get x).get y

/-- Write one pixel. -/
def Framebuffer.setPixel (fb : Framebuffer) (x : Fin 64) (y : Fin 32) (b : Bool) : Framebuffer :=
  fb.set x.val ((fb.get x).set y.val b y.isLt) x.isLt

/-- Every pixel 0 (R95, R147). -/
def Framebuffer.clear : Framebuffer := Vector.replicate 64 (Vector.replicate 32 false)

/-! ### Keypad -/

/-- Key[k] (R31). -/
def State.keyPressed (s : State) (k : Nibble) : Bool := s.key[k.toNat]'k.isLt

/-! ### Faults -/

/-- The numeric code of a fault kind, 3 bits (R123). -/
def FaultKind.code : FaultKind → BitVec 3
  | .illegalInstruction => 1
  | .outOfBounds => 2
  | .invalidRegister => 3
  | .stackOverflow => 4
  | .stackUnderflow => 5
  | .misalignedFetch => 6
  | .operandRange => 7

/-- The fault record, if one is held (R35, R44). -/
def State.faultRecord (s : State) : Option FaultRecord :=
  match s.run with
  | .halted f => some f
  | .running => none
  | .awaitingKey _ => none

/-- TAKING A FAULT (R125). `s` is the state before the step, so every write of the step is discarded, PC's advance included; the record is set and
the run state becomes Halted. `word` is none for the two fetch faults (R33). -/
def State.raise (s : State) (kind : FaultKind) (word : Option Word) (detail : Word) : State :=
  { s with run := .halted { kind := kind, pc := s.pc, word := word, detail := detail } }

/-- A fault of the execute phase of instruction `i`: the record holds its word (R33, R124). -/
def State.trap (s : State) (i : Instr) (kind : FaultKind) (detail : Word) : Host.Outcome State Fault Refusal :=
  .next (s.raise kind (some (encode i)) detail)

/-! ### Fetch -/

/-- The word at PC, big-endian (R48, R49). -/
def State.fetchWord (s : State) : Word :=
  wordOfBytes (s.mem.read s.pc.toNat) (s.mem.read (s.pc.toNat + 1))

/-- The first three lines of R64: the word, or the state with MisalignedFetch or else OutOfBounds taken (R48, R51, R126). -/
def State.fetch (s : State) : Except State Word :=
  if s.pc.getLsbD 0 then .error (s.raise .misalignedFetch none s.pc)
  else match rangeFault s.pc.toNat 2 with
    | some d => .error (s.raise .outOfBounds none d)
    | none => .ok s.fetchWord

/-- Fetch and decode (R64): an instruction, or the state with the fault of the fetch or IllegalInstruction taken (R78, R126). -/
def State.fetchDecode (s : State) : Except State Instr :=
  match s.fetch with
  | .error t => .error t
  | .ok w =>
    match decodeWord w with
    | .ok i => .ok i
    | .error _ => .error (s.raise .illegalInstruction (some w) w)

/-- `s` with the word `w` stored at its fetch address. Where no fetch can happen (not Running, or PC odd or out of range), the machine is
Running at PROGRAM_BASE (log 6). -/
def State.placeWord (s : State) (w : Word) : State :=
  let pc : Word := if s.pc.getLsbD 0 = false ∧ s.pc.toNat + 1 < Config.memSize then s.pc else BitVec.ofNat 16 Config.programBase
  { s with pc := pc, run := .running, mem := s.mem.writeBytes pc.toNat [highByte w, lowByte w] }

end Sys2Proof.Machine
end

