-- ==== Sys2Proof/Machine/Flags.lean ====
section
/-! DEFINITION. The flag VF: every flag computation of the spec and the order of the two writes (spec/10_state.md R19, spec/40_alu.md). -/

namespace Sys2Proof.Machine

/-- A flag value in VF: 0x01 or 0x00. -/
def flagByte (c : Bool) : Byte := if c then 0x01 else 0x00

/-- 8XY4: 1 when a + b exceeds 255 (R88). -/
def carryFlag (a b : Byte) : Byte := flagByte (decide (255 < a.toNat + b.toNat))

/-- 8XY5 and 8XY7: 1 when minuend ≥ subtrahend (R89, R91). -/
def noBorrowFlag (minuend subtrahend : Byte) : Byte := flagByte (decide (subtrahend.toNat ≤ minuend.toNat))

/-- 8XY6: the bit shifted out, bit 0 (R90). -/
def shiftRightFlag (a : Byte) : Byte := flagByte (a.getLsbD 0)

/-- 8XYE: the bit shifted out, bit 7 (R92). -/
def shiftLeftFlag (a : Byte) : Byte := flagByte (a.getLsbD 7)

/-- `V[0xF] <- flag` (R19). -/
def State.setFlag (s : State) (flag : Byte) : State := s.setReg 0xF flag

/-- The flag first, then the result, so that with x = F the result remains (R14, R88; D8; conflict C3). -/
def State.setFlagThenReg (s : State) (x : Nibble) (flag result : Byte) : State :=
  (s.setFlag flag).setReg x result

end Sys2Proof.Machine
end

