-- ==== Sys2Proof/Machine/Operands.lean ====
section
/-! DEFINITION. How operands become values (spec/30_encoding.md R70, spec/20_memory.md R63): there is no sign extension, scaling or
PC-relative form. -/

namespace Sys2Proof.Machine

/-- `zext_16(NNN)` (R10, R70). -/
def zext16 (nnn : Addr12) : Word := nnn.setWidth 16

/-- The effective address I + k, an unbounded sum (R63). -/
def State.effAddr (s : State) (k : Nat) : Nat := s.i.toNat + k

/-- A key or digit number: the value of V[x] if it is at most 15 (R113, R114, R119; D14). -/
def digitOf (b : Byte) : Option Nibble := if b.toNat ≤ 0x0F then some (b.setWidth 4) else none

/-- `zext_8` of a 4-bit key number (R10, R42). -/
def zext8 (k : Nibble) : Byte := k.setWidth 8

/-- The n-th register's number, for the loops of FX55 and FX65 (R121, R122). -/
def regNumber (n : Nat) : Nibble := BitVec.ofNat 4 n

/-- The three decimal digits of a byte, hundreds first (R120). -/
def bcdDigits (b : Byte) : List Byte :=
  [BitVec.ofNat 8 (b.toNat / 100), BitVec.ofNat 8 (b.toNat / 10 % 10), BitVec.ofNat 8 (b.toNat % 10)]

/-- The address of the glyph of digit d (R55, R119). -/
def glyphAddr (d : Nibble) : Word := BitVec.ofNat 16 (Config.fontBase + 5 * d.toNat)

end Sys2Proof.Machine
end

