-- ==== Sys2Proof/Machine/Alu.lean ====
section
/-! DEFINITION. Register and ALU instructions (spec/40_alu.md R81 to R93). `s` is the state before the step; each meaning works on `s.advance`, the
state of its execute phase (R64), and none of them can fault (R124). -/

namespace Sys2Proof.Machine

/-- 6XNN: `V[X] <- NN` (R82). -/
def execLdByte (x : Nibble) (nn : Byte) (s : State) : Host.Outcome State Fault Refusal :=
  .next (s.advance.setReg x nn)

/-- 7XNN: `V[X] <- trunc_8(V[X] + NN)`, no flag (R83). -/
def execAddByte (x : Nibble) (nn : Byte) (s : State) : Host.Outcome State Fault Refusal :=
  .next (s.advance.setReg x (s.reg x + nn))

/-- 8XY0: `V[X] <- V[Y]` (R84). -/
def execLdReg (x y : Nibble) (s : State) : Host.Outcome State Fault Refusal :=
  .next (s.advance.setReg x (s.reg y))

/-- 8XY1: `V[X] <- V[X] | V[Y]`, VF not written as a flag (R85). -/
def execOr (x y : Nibble) (s : State) : Host.Outcome State Fault Refusal :=
  .next (s.advance.setReg x (s.reg x ||| s.reg y))

/-- 8XY2: `V[X] <- V[X] & V[Y]`, VF not written as a flag (R86). -/
def execAnd (x y : Nibble) (s : State) : Host.Outcome State Fault Refusal :=
  .next (s.advance.setReg x (s.reg x &&& s.reg y))

/-- 8XY3: `V[X] <- V[X] ^ V[Y]`, VF not written as a flag (R87). -/
def execXor (x y : Nibble) (s : State) : Host.Outcome State Fault Refusal :=
  .next (s.advance.setReg x (s.reg x ^^^ s.reg y))

/-- 8XY4: add with carry (R88). -/
def execAddReg (x y : Nibble) (s : State) : Host.Outcome State Fault Refusal :=
  .next (s.advance.setFlagThenReg x (carryFlag (s.reg x) (s.reg y)) (s.reg x + s.reg y))

/-- 8XY5: V[X] - V[Y] (R89). -/
def execSub (x y : Nibble) (s : State) : Host.Outcome State Fault Refusal :=
  .next (s.advance.setFlagThenReg x (noBorrowFlag (s.reg x) (s.reg y)) (s.reg x - s.reg y))

/-- 8XY6: shift V[X] right by one; Y is ignored (R79, R90; D6). -/
def execShr (x _y : Nibble) (s : State) : Host.Outcome State Fault Refusal :=
  .next (s.advance.setFlagThenReg x (shiftRightFlag (s.reg x)) (s.reg x >>> 1))

/-- 8XY7: V[Y] - V[X] into V[X] (R91). -/
def execSubn (x y : Nibble) (s : State) : Host.Outcome State Fault Refusal :=
  .next (s.advance.setFlagThenReg x (noBorrowFlag (s.reg y) (s.reg x)) (s.reg y - s.reg x))

/-- 8XYE: shift V[X] left by one; Y is ignored (R79, R92; D6). -/
def execShl (x _y : Nibble) (s : State) : Host.Outcome State Fault Refusal :=
  .next (s.advance.setFlagThenReg x (shiftLeftFlag (s.reg x)) (s.reg x <<< 1))

/-- `Draw8()`: the byte this CXNN draws, and the state in which the draw has been taken (R12, R93; log 3). -/
def State.draw8 (s : State) : Byte × State :=
  (Config.freeByte s.draws, { s with draws := s.draws + 1 })

/-- CXNN: `V[X] <- r & NN` with r a free byte (R93). -/
def execRnd (x : Nibble) (nn : Byte) (s : State) : Host.Outcome State Fault Refusal :=
  .next (s.advance.draw8.2.setReg x (s.advance.draw8.1 &&& nn))

end Sys2Proof.Machine
end

