-- ==== Sys2Proof/Machine/ControlFlow.lean ====
section
/-! DEFINITION. Control-flow instructions (spec/42_control_flow.md R99 to R109). Targets are absolute and unchecked: a bad one faults at the next
fetch (R99). -/

namespace Sys2Proof.Machine

/-- 1NNN: `pc <- zext_16(NNN)` (R100). -/
def execJp (nnn : Addr12) (s : State) : Host.Outcome State Fault Refusal :=
  .next (s.advance.jump (zext16 nnn))

/-- BNNN: `pc <- trunc_16(zext_16(NNN) + V[0])`; X is part of NNN (R101). -/
def execJpV0 (nnn : Addr12) (s : State) : Host.Outcome State Fault Refusal :=
  .next (s.advance.jump (zext16 nnn + (s.reg 0).setWidth 16))

/-- 2NNN: `Push(PC)`, which is the advanced PC, then `pc <- zext_16(NNN)` (R102). -/
def execCall (nnn : Addr12) (s : State) : Host.Outcome State Fault Refusal :=
  match s.advance.push s.advance.pc with
  | some t => .next (t.jump (zext16 nnn))
  | none => s.trap (.call nnn) .stackOverflow 16

/-- 00EE: `pc <- Pop()` (R103). -/
def execRet (s : State) : Host.Outcome State Fault Refusal :=
  match s.advance.pop with
  | some (w, t) => .next (t.jump w)
  | none => s.trap .ret .stackUnderflow 0

/-- 3XNN: skip if V[X] = NN (R104). -/
def execSeByte (x : Nibble) (nn : Byte) (s : State) : Host.Outcome State Fault Refusal :=
  .next (s.advance.skipIf (decide (s.reg x = nn)))

/-- 4XNN: skip if V[X] ≠ NN (R105). -/
def execSneByte (x : Nibble) (nn : Byte) (s : State) : Host.Outcome State Fault Refusal :=
  .next (s.advance.skipIf (decide (s.reg x ≠ nn)))

/-- 5XY0: skip if V[X] = V[Y] (R106). -/
def execSeReg (x y : Nibble) (s : State) : Host.Outcome State Fault Refusal :=
  .next (s.advance.skipIf (decide (s.reg x = s.reg y)))

/-- 9XY0: skip if V[X] ≠ V[Y] (R107). -/
def execSneReg (x y : Nibble) (s : State) : Host.Outcome State Fault Refusal :=
  .next (s.advance.skipIf (decide (s.reg x ≠ s.reg y)))

/-- 0NNN under a value of SYS_POLICY: nothing but the advance, or IllegalInstruction with the word as detail (R108; D5). R108 raises the fault at
decode; no check of the execute phase stands between, so the step is the same (log 1). -/
def sysUnder (policy : SysPolicy) (nnn : Addr12) (s : State) : Host.Outcome State Fault Refusal :=
  match policy with
  | .nop => .next s.advance
  | .fault => s.trap (.sys nnn) .illegalInstruction (encode (.sys nnn))

/-- 0NNN under the block's SYS_POLICY (R9, R108; log 1). -/
def execSys (nnn : Addr12) (s : State) : Host.Outcome State Fault Refusal :=
  sysUnder Config.sysPolicy nnn s

end Sys2Proof.Machine
end

