-- ==== Sys2Proof/Machine/Display.lean ====
section
/-! DEFINITION. Display instructions (spec/41_display.md R94 to R98). -/

namespace Sys2Proof.Machine

/-- 00E0: every pixel 0; VF is not written (R95). -/
def execCls (s : State) : Host.Outcome State Fault Refusal :=
  .next { s.advance with fb := Framebuffer.clear }

/-- Column offset c of a sprite row is bit 7 - c of its byte: bit 7 is leftmost (R94; D15). -/
def spriteBit (b : Byte) (c : Nat) : Bool := b.getLsbD (7 - c)

/-- A drawing in progress: the framebuffer, and whether a set pixel has been cleared so far (`collide` of R96). -/
abbrev Drawing := Framebuffer × Bool

/-- The innermost lines of R96: note a collision, then flip the pixel. -/
def Drawing.flip (d : Drawing) (x : Fin 64) (y : Fin 32) : Drawing :=
  (d.1.setPixel x y (!d.1.pixel x y), d.2 || d.1.pixel x y)

/-- One sprite row: the byte `b` at columns x0 .. x0 + 7 of line y, each coordinate reduced modulo the grid (R94, R96). -/
def Drawing.row (b : Byte) (x0 y : Nat) (d : Drawing) : Drawing :=
  (List.range 8).foldl (fun d c => if spriteBit b c then d.flip (Fin.ofNat 64 (x0 + c)) (Fin.ofNat 32 y) else d) d

/-- The loop of R96 over the N rows of the sprite at `base`. -/
def Drawing.sprite (m : Memory) (base x0 y0 n : Nat) (d : Drawing) : Drawing :=
  (List.range n).foldl (fun d r => d.row (m.read (base + r)) x0 (y0 + r)) d

/-- DXYN: draw N rows with XOR and wrap-around; VF is the collision (R96). Coordinates are read before VF is written. -/
def execDrw (x y n : Nibble) (s : State) : Host.Outcome State Fault Refusal :=
  match rangeFault (s.effAddr 0) n.toNat with
  | some d => s.trap (.drw x y n) .outOfBounds d
  | none =>
    let drawn := Drawing.sprite s.mem (s.effAddr 0) (s.reg x).toNat (s.reg y).toNat n.toNat (s.fb, false)
    .next ({ s.advance with fb := drawn.1 }.setFlag (flagByte drawn.2))

end Sys2Proof.Machine
end

