-- ==== Sys2Proof/Machine/MemoryIndex.lean ====
section
/-! DEFINITION. Index-register and memory instructions (spec/44_memory_index.md R117 to R122). The one addressing mode is I plus an offset; no access
changes I. -/

namespace Sys2Proof.Machine

/-- ANNN: `I <- zext_16(NNN)` (R117). -/
def execLdI (nnn : Addr12) (s : State) : Host.Outcome State Fault Refusal :=
  .next { s.advance with i := zext16 nnn }

/-- FX1E: `I <- trunc_16(I + V[X])`; VF is not written (R118; D12). -/
def execAddIVx (x : Nibble) (s : State) : Host.Outcome State Fault Refusal :=
  .next { s.advance with i := s.i + (s.reg x).setWidth 16 }

/-- FX29: `I <- FONT_BASE + 5 * V[X]`; OperandRange when V[X] > 15 (R119; D13, D14). -/
def execLdFVx (x : Nibble) (s : State) : Host.Outcome State Fault Refusal :=
  match digitOf (s.reg x) with
  | some d => .next { s.advance with i := glyphAddr d }
  | none => s.trap (.ldFVx x) .operandRange ((s.reg x).setWidth 16)

/-- FX33: the digits of V[X] at I, I+1, I+2 (R120). -/
def execLdBVx (x : Nibble) (s : State) : Host.Outcome State Fault Refusal :=
  match rangeFault (s.effAddr 0) 3 with
  | some d => s.trap (.ldBVx x) .outOfBounds d
  | none => .next { s.advance with mem := s.mem.writeBytes (s.effAddr 0) (bcdDigits (s.reg x)) }

/-- The values of V0 .. V[X], as FX55 stores them (R121). -/
def State.regBytes (s : State) (x : Nibble) : List Byte :=
  (List.range (x.toNat + 1)).map (fun k => s.reg (regNumber k))

/-- FX55: `mem[I + k] <- V[k]` for k = 0 .. X (R121; D11). -/
def execStoreRegs (x : Nibble) (s : State) : Host.Outcome State Fault Refusal :=
  match rangeFault (s.effAddr 0) (x.toNat + 1) with
  | some d => s.trap (.storeRegs x) .outOfBounds d
  | none => .next { s.advance with mem := s.mem.writeBytes (s.effAddr 0) (s.regBytes x) }

/-- `V[k] <- mem[base + k]` for the first n registers (R122). -/
def State.loadRegsFrom (s : State) (base n : Nat) : State :=
  (List.range n).foldl (fun t k => t.setReg (regNumber k) (s.mem.read (base + k))) s

/-- FX65: `V[k] <- mem[I + k]` for k = 0 .. X (R122; D11). -/
def execLoadRegs (x : Nibble) (s : State) : Host.Outcome State Fault Refusal :=
  match rangeFault (s.effAddr 0) (x.toNat + 1) with
  | some d => s.trap (.loadRegs x) .outOfBounds d
  | none => .next (s.advance.loadRegsFrom (s.effAddr 0) (x.toNat + 1))

end Sys2Proof.Machine
end

