-- ==== Sys2Proof/Machine/TimersKeys.lean ====
section
/-! DEFINITION. Timer and keypad instructions (spec/43_timers_keys.md R110 to R116). -/

namespace Sys2Proof.Machine

/-- FX07: `V[X] <- DT` (R110). -/
def execLdVxDt (x : Nibble) (s : State) : Host.Outcome State Fault Refusal :=
  .next (s.advance.setReg x s.dt)

/-- FX15: `DT <- V[X]` (R111). -/
def execLdDtVx (x : Nibble) (s : State) : Host.Outcome State Fault Refusal :=
  .next { s.advance with dt := s.reg x }

/-- FX18: `ST <- V[X]` (R112). -/
def execLdStVx (x : Nibble) (s : State) : Host.Outcome State Fault Refusal :=
  .next { s.advance with st := s.reg x }

/-- EX9E: skip if the key numbered V[X] is pressed; OperandRange when V[X] > 15 (R113; D14). -/
def execSkp (x : Nibble) (s : State) : Host.Outcome State Fault Refusal :=
  match digitOf (s.reg x) with
  | some k => .next (s.advance.skipIf (s.keyPressed k))
  | none => s.trap (.skp x) .operandRange ((s.reg x).setWidth 16)

/-- EXA1: skip if the key numbered V[X] is not pressed; OperandRange when V[X] > 15 (R114; D14). -/
def execSknp (x : Nibble) (s : State) : Host.Outcome State Fault Refusal :=
  match digitOf (s.reg x) with
  | some k => .next (s.advance.skipIf (!s.keyPressed k))
  | none => s.trap (.sknp x) .operandRange ((s.reg x).setWidth 16)

/-- FX0A: `run state <- AwaitingKey(X)`; V[X] is not yet written (R115; conflict C7). -/
def execLdVxK (x : Nibble) (s : State) : Host.Outcome State Fault Refusal :=
  .next { s.advance with run := .awaitingKey x }

end Sys2Proof.Machine
end

