-- ==== Sys2Proof/Machine/Step.lean ====
section
/-! DEFINITION. One step of the sequencer (spec/30_encoding.md R64 to R66, spec/60_exceptions.md R125 to R127). -/

namespace Sys2Proof.Machine

/-- `step()`: in Running, fetch, decode and execute, a fault being taken as a halted next state (R64, R125); in AwaitingKey and Halted, nothing
changes (R65, R127). -/
def step (s : State) : Host.Outcome State Fault Refusal :=
  match s.run with
  | .running =>
    match s.fetchDecode with
    | .ok i => exec i s
    | .error t => .next t
  | .awaitingKey _ => .next s
  | .halted _ => .next s

/-- `s` with the instruction of the opcode table's bits `w` at the address the next step fetches from (log 6). -/
def State.withFetchWord (s : State) (nbits w : Nat) : State := s.placeWord (tableWord nbits w)

end Sys2Proof.Machine
end

