-- ==== Sys2Proof/Machine/HostOps.lean ====
section
/-! DEFINITION. The host's operations other than `step`, and the two outputs (spec/10_state.md R38 to R44, spec/60_exceptions.md R127, R134,
spec/70_reset_and_hazards.md R146 to R150). Each is atomic and none is a step (log 9). -/

namespace Sys2Proof.Machine

/-- One timer decrement: toward zero, never below (R28, R41, R133). -/
def timerDown (t : Byte) : Byte := if t = 0 then 0 else t - 1

/-- `tick()`: both timers, in every run state (R41, R134). -/
def State.tick (s : State) : State := { s with dt := timerDown s.dt, st := timerDown s.st }

/-- The key-wait release of R116: a key that was not pressed and now is ends the wait and is recorded in V[x]. -/
def State.releaseWait (s : State) (k : Nibble) (old pressed : Bool) : State :=
  match s.run with
  | .awaitingKey x => if !old && pressed then { s.setReg x (zext8 k) with run := .running } else s
  | .running => s
  | .halted _ => s

/-- `set_key(k, pressed)` (R42). -/
def State.setKey (s : State) (k : Nibble) (pressed : Bool) : State :=
  { s with key := s.key.set k.toNat pressed k.isLt }.releaseWait k (s.keyPressed k) pressed

/-- `read_framebuffer()`: FB[x][y] as Bits[64][32], without side effect (R39). -/
def State.readFramebuffer (s : State) : Framebuffer := s.fb

/-- `sound_on` = (ST ≠ 0) (R44, R138). -/
def State.soundOn (s : State) : Bool := s.st != 0

/-- `status`: the run state together with the fault record (R44). -/
def State.status (s : State) : RunState × Option FaultRecord := (s.run, s.faultRecord)

/-- What `load` answers (R43, R146). -/
inductive LoadResult where
  /-- The image is installed. -/
  | ok
  /-- The image is too long; nothing has changed. -/
  | outOfBounds
  deriving DecidableEq, Repr

/-- `Reset()`: every piece of the spec's state at its reset value (R147). The count of draws is no state of the spec and goes on, so that a second
session draws fresh bytes (R34; log 3). -/
def State.resetOf (s : State) : State := { State.reset with draws := s.draws }

/-- `load(image)` (R146, R148, R150): refused without a change when the image is longer than 3584 bytes. -/
def State.load (s : State) (image : List Byte) : LoadResult × State :=
  if Config.maxImage < image.length then (.outOfBounds, s)
  else (.ok, { s.resetOf with mem := s.resetOf.mem.writeBytes Config.programBase image })

end Sys2Proof.Machine
end

