-- ==== Sys2Proof/Machine/Session.lean ====
section
/-! DEFINITION. What the host sees of a step, and sequences of host operations in any order (spec/10_state.md R38 to R44,
spec/60_exceptions.md R143, R144). -/

namespace Sys2Proof.Machine

/-- The step result of R40. -/
inductive StepResult where
  /-- One instruction completed. -/
  | executed
  /-- The machine awaits a key; nothing was executed. -/
  | waiting
  /-- This step faulted, or the machine was already halted. -/
  | fault (f : FaultRecord)
  deriving DecidableEq, Repr

/-- The result of a step from its run state before and after (R40). -/
def resultOf (before after : RunState) : StepResult :=
  match after with
  | .halted f => .fault f
  | .running => match before with
    | .awaitingKey _ => .waiting
    | .running => .executed
    | .halted f => .fault f
  | .awaitingKey _ => match before with
    | .awaitingKey _ => .waiting
    | .running => .executed
    | .halted f => .fault f

/-- What `step()` returns to the host (R40), where the model has a next state. -/
def stepResult (s : State) : Option StepResult :=
  match step s with
  | .next t => some (resultOf s.run t.run)
  | .fault _ => none
  | .refused _ => none

/-- The five operations of the host (R38, R143). -/
inductive HostEvent where
  | step
  | tick
  | setKey (k : Nibble) (pressed : Bool)
  | readFramebuffer
  | load (image : List Byte)
  deriving DecidableEq, Repr

/-- One host operation, an atomic transition of the whole block (R143). A read and a refused load change nothing (R39, R148). -/
def hostEvent (e : HostEvent) (s : State) : Host.Outcome State Fault Refusal :=
  match e with
  | .step => step s
  | .tick => .next s.tick
  | .setKey k pressed => .next (s.setKey k pressed)
  | .readFramebuffer => .next s
  | .load image => .next (s.load image).2

/-- Host operations one after another, in the order the host chose (R143). -/
def hostRun : List HostEvent → State → Host.Outcome State Fault Refusal
  | [], s => .next s
  | e :: es, s =>
    match hostEvent e s with
    | .next t => hostRun es t
    | .fault r => .fault r
    | .refused r => .refused r

end Sys2Proof.Machine
end

