-- ==== Sys2Proof/Safety.lean ====
section
/-! DEFINITION. The words claims are stated in: what an instruction leaves unchanged, what a well-kept state is, when an instruction faults, and runs of
host operations in which nothing of a kind happens. -/

namespace Sys2Proof.Machine

/-! ### Frames -/

/-- The pieces of State, for frames. -/
inductive Part where
  | regs | index | pc | stack | dt | st | screen | keys | run | memory | draws
  deriving DecidableEq, Repr

/-- A piece of state is the same in `s` and `t`: registers, pixels and memory by what a read of each one gives. -/
def Part.Same : Part → State → State → Prop
  | .regs, s, t => ∀ r, t.reg r = s.reg r
  | .index, s, t => t.i = s.i
  | .pc, s, t => t.pc = s.pc
  | .stack, s, t => t.sp = s.sp ∧ t.stack = s.stack
  | .dt, s, t => t.dt = s.dt
  | .st, s, t => t.st = s.st
  | .screen, s, t => ∀ x y, t.fb.pixel x y = s.fb.pixel x y
  | .keys, s, t => ∀ k, t.keyPressed k = s.keyPressed k
  | .run, s, t => t.run = s.run
  | .memory, s, t => ∀ a, t.mem.read a = s.mem.read a
  | .draws, s, t => t.draws = s.draws

/-- Every piece of state but the listed ones is the same. -/
def SameBut (changed : List Part) (s t : State) : Prop := ∀ p, p ∉ changed → p.Same s t

/-- Every register but those in `except` is the same. -/
def RegsSameBut (except : List Nibble) (s t : State) : Prop := ∀ r, r ∉ except → t.reg r = s.reg r

/-- Every byte of memory outside the `n` bytes from `base` on is the same. -/
def BytesSameOutside (base n : Nat) (s t : State) : Prop :=
  ∀ a, ¬ (base ≤ a ∧ a < base + n) → t.mem.read a = s.mem.read a

/-! ### Safe runs and invariants -/

/-- A safe state: no fault has been taken (R32, R127). -/
def State.Safe (s : State) : Prop := s.faultRecord = none

/-- Memory is in its canonical form (log 8). -/
def MemoryCanonical (s : State) : Prop := s.mem.wf

/-- PC is at most 0x10FE, and every stack entry is an even address at most 0x1000 (R24, R102). -/
def PcAndStackInRange (s : State) : Prop :=
  s.pc.toNat ≤ 0x10FE ∧ ∀ k : Fin 16, (s.stack.get k).toNat ≤ 0x1000 ∧ (s.stack.get k).toNat % 2 = 0

/-! ### When an instruction faults -/

/-- The fault of an instruction's execute phase, with its detail, as the table of R124 gives it for SYS_POLICY = Nop. -/
def executeFault : Instr → State → Option (FaultKind × Word)
  | .ret, s => if s.sp = 0 then some (.stackUnderflow, 0) else none
  | .call _, s => if s.sp = 16 then some (.stackOverflow, 16) else none
  | .drw _ _ n, s =>
    if 0 < n.toNat ∧ 4096 ≤ s.i.toNat + n.toNat - 1 then some (.outOfBounds, BitVec.ofNat 16 (max s.i.toNat 4096)) else none
  | .skp x, s | .sknp x, s | .ldFVx x, s =>
    if 15 < (s.reg x).toNat then some (.operandRange, (s.reg x).setWidth 16) else none
  | .ldBVx _, s => if 4096 ≤ s.i.toNat + 2 then some (.outOfBounds, BitVec.ofNat 16 (max s.i.toNat 4096)) else none
  | .storeRegs x, s | .loadRegs x, s =>
    if 4096 ≤ s.i.toNat + x.toNat then some (.outOfBounds, BitVec.ofNat 16 (max s.i.toNat 4096)) else none
  | .cls, _ | .sys _, _ | .jp _, _ | .seByte _ _, _ | .sneByte _ _, _ | .seReg _ _, _ | .ldByte _ _, _ | .addByte _ _, _ => none
  | .ldReg _ _, _ | .orReg _ _, _ | .andReg _ _, _ | .xorReg _ _, _ | .addReg _ _, _ | .subReg _ _, _ | .shr _ _, _ => none
  | .subnReg _ _, _ | .shl _ _, _ | .sneReg _ _, _ | .ldI _, _ | .jpV0 _, _ | .rnd _ _, _ => none
  | .ldVxDt _, _ | .ldVxK _, _ | .ldDtVx _, _ | .ldStVx _, _ | .addIVx _, _ => none

/-- The instructions that may leave PC elsewhere than a + 2 when they complete: jumps, call, return and skips (R99 to R107, R113, R114). -/
def transfersControl : Instr → Bool
  | .ret | .jp _ | .call _ | .jpV0 _ | .seByte _ _ | .sneByte _ _ | .seReg _ _ | .sneReg _ _ | .skp _ | .sknp _ => true
  | .cls | .sys _ | .ldByte _ _ | .addByte _ _ | .ldReg _ _ | .orReg _ _ | .andReg _ _ | .xorReg _ _ | .addReg _ _ => false
  | .subReg _ _ | .shr _ _ | .subnReg _ _ | .shl _ _ | .ldI _ | .rnd _ _ | .drw _ _ _ | .ldVxDt _ | .ldVxK _ => false
  | .ldDtVx _ | .ldStVx _ | .addIVx _ | .ldFVx _ | .ldBVx _ | .storeRegs _ | .loadRegs _ => false

/-- Whether an instruction has V[r] among its destinations, apart from a flag write (R18, R93, R110, R122). -/
def writesReg (r : Nibble) : Instr → Bool
  | .ldByte x _ | .addByte x _ | .rnd x _ => x == r
  | .ldReg x _ | .orReg x _ | .andReg x _ | .xorReg x _ => x == r
  | .addReg x _ | .subReg x _ | .shr x _ | .subnReg x _ | .shl x _ => x == r
  | .ldVxDt x => x == r
  | .loadRegs x => decide (r.toNat ≤ x.toNat)
  | .cls | .ret | .sys _ | .jp _ | .call _ | .seByte _ _ | .sneByte _ _ | .seReg _ _ | .sneReg _ _ => false
  | .ldI _ | .jpV0 _ | .drw _ _ _ | .skp _ | .sknp _ | .ldVxK _ | .ldDtVx _ | .ldStVx _ => false
  | .addIVx _ | .ldFVx _ | .ldBVx _ | .storeRegs _ => false

/-- The six instructions that write VF as a flag (R19). -/
def writesFlag : Instr → Bool
  | .addReg _ _ | .subReg _ _ | .shr _ _ | .subnReg _ _ | .shl _ _ | .drw _ _ _ => true
  | .cls | .ret | .sys _ | .jp _ | .call _ | .seByte _ _ | .sneByte _ _ | .seReg _ _ | .sneReg _ _ => false
  | .ldByte _ _ | .addByte _ _ | .ldReg _ _ | .orReg _ _ | .andReg _ _ | .xorReg _ _ | .rnd _ _ => false
  | .ldI _ | .jpV0 _ | .skp _ | .sknp _ | .ldVxDt _ | .ldVxK _ | .ldDtVx _ | .ldStVx _ => false
  | .addIVx _ | .ldFVx _ | .ldBVx _ | .storeRegs _ | .loadRegs _ => false

/-! ### Fault records and the invariant -/

/-- `f` is the record of the execute phase of the instruction at PC: its word, and the kind and detail of its fault in `s` (R33, R124). -/
def FaultRecord.FromExecute (f : FaultRecord) (s : State) : Prop :=
  ∃ i, decodeWord s.fetchWord = .ok i ∧ f.word = some (encode i) ∧ executeFault i s = some (f.kind, f.detail)

/-- What R33 and R123 say a record of each kind holds, in the state it is held in: that state is the one the fault froze but for timers and keys. An
OutOfBounds record is that of a fetch, with no word, or that of an execute phase. -/
def FaultRecord.Fits (f : FaultRecord) (s : State) : Prop :=
  f.pc = s.pc ∧
  match f.kind with
  | .illegalInstruction => f.word = some f.detail ∧ f.detail = s.fetchWord ∧ ∃ e, decodeWord f.detail = .error e
  | .outOfBounds =>
    (f.word = none ∧ s.pc.toNat % 2 = 0 ∧ 4096 ≤ s.pc.toNat + 1 ∧ f.detail = BitVec.ofNat 16 (max s.pc.toNat 4096)) ∨ f.FromExecute s
  | .invalidRegister => False
  | .stackOverflow => f.detail = 16 ∧ s.sp = 16 ∧ f.FromExecute s
  | .stackUnderflow => f.detail = 0 ∧ s.sp = 0 ∧ f.FromExecute s
  | .misalignedFetch => f.detail = f.pc ∧ f.word = none ∧ f.pc.toNat % 2 = 1
  | .operandRange => 15 < f.detail.toNat ∧ f.detail.toNat ≤ 255 ∧ f.FromExecute s

/-- A halted machine's record fits the state it froze (R33, R123, R125). -/
def FaultRecordFits (s : State) : Prop := ∀ f, s.run = .halted f → f.Fits s

/-- The invariant of the machine: memory in the model's canonical form (log 8), the bounds of R24 and R102, and the record of R33. -/
def Inv (s : State) : Prop := MemoryCanonical s ∧ PcAndStackInRange s ∧ FaultRecordFits s

/-! ### Sprites -/

/-- A set bit of the sprite of `drw x y n` lands on pixel (px, py): R94 read as a relation, with no loop. -/
def SpriteCovers (s : State) (x y n : Nibble) (px : Fin 64) (py : Fin 32) : Prop :=
  ∃ r c : Nat, r < n.toNat ∧ c < 8 ∧ (s.mem.read (s.i.toNat + r)).getLsbD (7 - c) = true ∧
    px.val = ((s.reg x).toNat + c) % 64 ∧ py.val = ((s.reg y).toNat + r) % 32

/-! ### Runs -/

/-- Execute instructions one after another, whatever their addresses. -/
def execAll : List Instr → State → Host.Outcome State Fault Refusal
  | [], s => .next s
  | i :: is, s =>
    match exec i s with
    | .next t => execAll is t
    | .fault r => .fault r
    | .refused r => .refused r

/-- A run of host operations without a `load`. -/
def NoLoad (es : List HostEvent) : Prop := ∀ image, HostEvent.load image ∉ es

/-- A run of host operations without a `load` and without a press of a key (R116). -/
def NoPress (es : List HostEvent) : Prop := NoLoad es ∧ ∀ k, HostEvent.setKey k true ∉ es

/-- The next step of `s` executes `i`. -/
def State.Executes (s : State) (i : Instr) : Prop := s.run = .running ∧ s.fetchDecode = .ok i

/-- No operation of the run, started in `s`, is a `load` or a step that executes FX15 or FX18 (R135). -/
def TimersUntouched : List HostEvent → State → Prop
  | [], _ => True
  | e :: es, s =>
    (∀ image, e ≠ .load image) ∧
    (e = .step → ∀ x, ¬ s.Executes (.ldDtVx x) ∧ ¬ s.Executes (.ldStVx x)) ∧
    ∀ t, hostEvent e s = .next t → TimersUntouched es t

/-- How many ticks a run holds. -/
def tickCount (es : List HostEvent) : Nat := es.count .tick

end Sys2Proof.Machine
end

