-- ==== Sys2Proof/Certificates/Slice0/Obligations.lean ====
section
/-! DEFINITION. The statements for the provers, from the numbered rules of spec/. In every statement about an instruction, `s` is any state whose PC is
the instruction's address, reachable or not. -/

open Sys2Proof Sys2Proof.Machine

/-! ### Encoding -/

/-- A few words of spec/95_test_vectors.md decode to the instructions they stand for (tables of 30_encoding.md R72 to R77). -/
def Obligations.SampleWordsDecode : Prop :=
  decodeWord 0x00E0 = .ok .cls ∧ decodeWord 0x00EE = .ok .ret ∧ decodeWord 0x0123 = .ok (.sys 0x123) ∧
  decodeWord 0x6A7B = .ok (.ldByte 0xA 0x7B) ∧ decodeWord 0x8F17 = .ok (.subnReg 0xF 0x1) ∧
  decodeWord 0xD125 = .ok (.drw 0x1 0x2 0x5) ∧ decodeWord 0xE1A1 = .ok (.sknp 0x1) ∧
  decodeWord 0xF265 = .ok (.loadRegs 0x2) ∧ decodeWord 0xBFFF = .ok (.jpV0 0xFFF)

/-- Decoding the encoding of a well-formed instruction gives it back, from the word and from its bytes with any bytes after them. -/
def Obligations.DecodeOfEncode : Prop :=
  ∀ i, wellFormed i = true →
    decodeWord (encode i) = .ok i ∧ ∀ rest, decode (encodeBytes i ++ rest) = .ok (i, rest)

/-- What the decoder reads is well-formed, and its encoding is the very word read: no bit of a word is dropped. -/
def Obligations.EncodeOfDecode : Prop :=
  ∀ w i, decodeWord w = .ok i → wellFormed i = true ∧ encode i = w

/-- R71 against opcode_table.json: a word decodes exactly if some row of the table matches it, to an instruction of a matching row, and no other row
matches but the SYS row under CLS and RET (the table's note on SYS). -/
def Obligations.DecodingSelectsOneTableRow : Prop :=
  ∀ w : Word,
    ((∃ i, decodeWord w = .ok i) ↔ ∃ j, w &&& (tableRow j).2 = (tableRow j).1) ∧
    ∀ i, decodeWord w = .ok i →
      w &&& (tableRow i).2 = (tableRow i).1 ∧
      ∀ j, w &&& (tableRow j).2 = (tableRow j).1 →
        tableRow j = tableRow i ∨ (tableRow j = (0x0000, 0xF000) ∧ (i = .cls ∨ i = .ret))

/-- The illegal words of R78, by the digits of the word. -/
def Obligations.IllegalWordsAreThese : Prop :=
  ∀ w : Word,
    (∃ e, decodeWord w = .error e) ↔
      (w.toNat / 4096 = 0x5 ∧ w.toNat % 16 ≠ 0) ∨
      (w.toNat / 4096 = 0x8 ∧ w.toNat % 16 ∈ [0x8, 0x9, 0xA, 0xB, 0xC, 0xD, 0xF]) ∨
      (w.toNat / 4096 = 0x9 ∧ w.toNat % 16 ≠ 0) ∨
      (w.toNat / 4096 = 0xE ∧ w.toNat % 256 ∉ [0x9E, 0xA1]) ∨
      (w.toNat / 4096 = 0xF ∧ w.toNat % 256 ∉ [0x07, 0x0A, 0x15, 0x18, 0x1E, 0x29, 0x33, 0x55, 0x65])

/-! ### The step -/

/-- When the bytes at PC decode to `i`, a step of a running machine is `exec i` of that state: nothing stands around it. -/
def Obligations.StepRunsDecodedInstruction : Prop :=
  ∀ s i rest, s.run = .running → s.pc.toNat % 2 = 0 → s.pc.toNat + 1 < 4096 →
    decode [s.mem.read s.pc.toNat, s.mem.read (s.pc.toNat + 1)] = .ok (i, rest) → step s = exec i s

/-- The order of the faults of a step (R126) with their records (R64, R48, R78), and the instruction otherwise. -/
def Obligations.StepReportsFirstFault : Prop :=
  ∀ s, s.run = .running →
    if s.pc.toNat % 2 = 1 then
      step s = .next { s with run := .halted ⟨.misalignedFetch, s.pc, none, s.pc⟩ }
    else if 4096 ≤ s.pc.toNat + 1 then
      step s = .next { s with run := .halted ⟨.outOfBounds, s.pc, none, BitVec.ofNat 16 (max s.pc.toNat 4096)⟩ }
    else
      ∀ w : Word, w.toNat = 256 * (s.mem.read s.pc.toNat).toNat + (s.mem.read (s.pc.toNat + 1)).toNat →
        match decodeWord w with
        | .error _ => step s = .next { s with run := .halted ⟨.illegalInstruction, s.pc, some w, w⟩ }
        | .ok i => step s = exec i s

/-- The step results of R40: a step answers a next state, whatever the state. It completes an instruction, or takes a fault; in AwaitingKey and in Halted
the next state is the same state (R65). -/
def Obligations.StepResults : Prop :=
  ∀ s,
    (s.run = .running → ∃ t, step s = .next t ∧
      (((t.run = .running ∨ ∃ x, t.run = .awaitingKey x) ∧ stepResult s = some .executed) ∨
        ∃ f, t.run = .halted f ∧ stepResult s = some (.fault f))) ∧
    (∀ x, s.run = .awaitingKey x → step s = .next s ∧ stepResult s = some .waiting) ∧
    (∀ f, s.run = .halted f → step s = .next s ∧ stepResult s = some (.fault f))

/-- Faults are precise (R125): whatever fault a step takes, every piece of state but the run state is as it was before the step, PC included, the
record names the instruction's address, and the step returns the fault. -/
def Obligations.FaultsArePrecise : Prop :=
  ∀ s t f, s.run = .running → step s = .next t → t.run = .halted f →
    t = { s with run := .halted f } ∧ f.pc = s.pc ∧ stepResult s = some (.fault f)

/-- The table of R124: an instruction's execute phase faults exactly when the table says, with the kind and detail of R33 and R123 and the
instruction's own word; otherwise it completes. -/
def Obligations.ExecuteFaultsAreTheTable : Prop :=
  ∀ i s, s.run = .running →
    match executeFault i s with
    | some (kind, detail) => exec i s = .next { s with run := .halted ⟨kind, s.pc, some (encode i), detail⟩ }
    | none => ∃ t, exec i s = .next t ∧ t.Safe

/-- A word stored where the machine fetches is the very next instruction, whatever state the machine was in (log 6). -/
def Obligations.PlacedWordRunsNext : Prop :=
  ∀ (s : State) (w : Nat) (i : Instr), decodeWord (BitVec.ofNat 16 w) = .ok i → w < 65536 →
    step (s.withFetchWord 16 w) = exec i (s.withFetchWord 16 w) ∧ (s.withFetchWord 16 w).run = .running

/-! ### Who writes what -/

/-- R19: VF changes only under the six instructions that write it as a flag, or as a register an instruction has as its destination. -/
def Obligations.FlagWritersAreThese : Prop :=
  ∀ i s t, exec i s = .next t → writesFlag i = false → writesReg 0xF i = false → t.reg 0xF = s.reg 0xF

/-- Each piece of the spec's state changes only under the instructions the spec names for it: general registers, I (R21), PC beyond its advance (R22), the
stack (R25), DT and ST (R28, R29), the framebuffer (R30), the run state with the fault record (R35: FX0A and faults), memory (R45); no instruction
writes the keypad (R31). -/
def Obligations.WritersOfEachPartAreThese : Prop :=
  ∀ i s t, exec i s = .next t →
    (∀ r, writesReg r i = false → (writesFlag i = false ∨ r ≠ 0xF) → t.reg r = s.reg r) ∧
    ((∀ nnn, i ≠ .ldI nnn) → (∀ x, i ≠ .addIVx x ∧ i ≠ .ldFVx x) → t.i = s.i) ∧
    (i ≠ .ret → (∀ nnn, i ≠ .call nnn) → t.sp = s.sp ∧ t.stack = s.stack) ∧
    ((∀ x, i ≠ .ldDtVx x) → t.dt = s.dt) ∧
    ((∀ x, i ≠ .ldStVx x) → t.st = s.st) ∧
    (i ≠ .cls → (∀ x y n, i ≠ .drw x y n) → ∀ px py, t.fb.pixel px py = s.fb.pixel px py) ∧
    ((∀ x, i ≠ .ldBVx x ∧ i ≠ .storeRegs x) → ∀ a, t.mem.read a = s.mem.read a) ∧
    (∀ k, t.keyPressed k = s.keyPressed k) ∧
    ((∀ x, i ≠ .ldVxK x) → t.run = s.run ∨ ∃ f, t.run = .halted f) ∧
    (transfersControl i = false → t.pc = s.pc + 2 ∨ (t.pc = s.pc ∧ ∃ f, t.run = .halted f))

/-! ### Register and ALU instructions -/

/-- 6XNN and 7XNN (R82, R83). -/
def Obligations.LoadAndAddImmediate : Prop :=
  ∀ (x : Nibble) (nn : Byte) (s : State),
    decodeWord (0x6#4 ++ x ++ nn) = .ok (.ldByte x nn) ∧ decodeWord (0x7#4 ++ x ++ nn) = .ok (.addByte x nn) ∧
    (∃ t, exec (.ldByte x nn) s = .next t ∧ t.reg x = nn ∧
      RegsSameBut [x] s t ∧ SameBut [.regs, .pc] s t ∧ t.pc = s.pc + 2) ∧
    (∃ t, exec (.addByte x nn) s = .next t ∧ (t.reg x).toNat = ((s.reg x).toNat + nn.toNat) % 256 ∧
      RegsSameBut [x] s t ∧ SameBut [.regs, .pc] s t ∧ t.pc = s.pc + 2)

/-- 8XY0, 8XY1, 8XY2 and 8XY3, bit by bit (R84 to R87): VF is written only as the destination. -/
def Obligations.CopyAndLogic : Prop :=
  ∀ (x y : Nibble) (s : State),
    decodeWord (0x8#4 ++ x ++ y ++ 0x0#4) = .ok (.ldReg x y) ∧ decodeWord (0x8#4 ++ x ++ y ++ 0x1#4) = .ok (.orReg x y) ∧
    decodeWord (0x8#4 ++ x ++ y ++ 0x2#4) = .ok (.andReg x y) ∧ decodeWord (0x8#4 ++ x ++ y ++ 0x3#4) = .ok (.xorReg x y) ∧
    (∃ t, exec (.ldReg x y) s = .next t ∧ t.reg x = s.reg y ∧
      RegsSameBut [x] s t ∧ SameBut [.regs, .pc] s t ∧ t.pc = s.pc + 2) ∧
    (∃ t, exec (.orReg x y) s = .next t ∧ (∀ b, (t.reg x).getLsbD b = ((s.reg x).getLsbD b || (s.reg y).getLsbD b)) ∧
      RegsSameBut [x] s t ∧ SameBut [.regs, .pc] s t ∧ t.pc = s.pc + 2) ∧
    (∃ t, exec (.andReg x y) s = .next t ∧ (∀ b, (t.reg x).getLsbD b = ((s.reg x).getLsbD b && (s.reg y).getLsbD b)) ∧
      RegsSameBut [x] s t ∧ SameBut [.regs, .pc] s t ∧ t.pc = s.pc + 2) ∧
    (∃ t, exec (.xorReg x y) s = .next t ∧ (∀ b, (t.reg x).getLsbD b = ((s.reg x).getLsbD b ^^ (s.reg y).getLsbD b)) ∧
      RegsSameBut [x] s t ∧ SameBut [.regs, .pc] s t ∧ t.pc = s.pc + 2)

/-- 8XY4: VF is the carry unless it is the destination, where the sum remains (R88). -/
def Obligations.AddWithCarry : Prop :=
  ∀ (x y : Nibble) (s : State),
    decodeWord (0x8#4 ++ x ++ y ++ 0x4#4) = .ok (.addReg x y) ∧
    ∃ t, exec (.addReg x y) s = .next t ∧ (t.reg x).toNat = ((s.reg x).toNat + (s.reg y).toNat) % 256 ∧
      (x ≠ 0xF → t.reg 0xF = if 255 < (s.reg x).toNat + (s.reg y).toNat then 0x01 else 0x00) ∧
      RegsSameBut [x, 0xF] s t ∧ SameBut [.regs, .pc] s t ∧ t.pc = s.pc + 2

/-- 8XY5 and 8XY7: VF is NOT borrow unless it is the destination, where the difference remains (R89, R91). -/
def Obligations.SubtractBothWays : Prop :=
  ∀ (x y : Nibble) (s : State),
    decodeWord (0x8#4 ++ x ++ y ++ 0x5#4) = .ok (.subReg x y) ∧ decodeWord (0x8#4 ++ x ++ y ++ 0x7#4) = .ok (.subnReg x y) ∧
    (∃ t, exec (.subReg x y) s = .next t ∧ (t.reg x).toNat = ((s.reg x).toNat + 256 - (s.reg y).toNat) % 256 ∧
      (x ≠ 0xF → t.reg 0xF = if (s.reg y).toNat ≤ (s.reg x).toNat then 0x01 else 0x00) ∧
      RegsSameBut [x, 0xF] s t ∧ SameBut [.regs, .pc] s t ∧ t.pc = s.pc + 2) ∧
    (∃ t, exec (.subnReg x y) s = .next t ∧ (t.reg x).toNat = ((s.reg y).toNat + 256 - (s.reg x).toNat) % 256 ∧
      (x ≠ 0xF → t.reg 0xF = if (s.reg x).toNat ≤ (s.reg y).toNat then 0x01 else 0x00) ∧
      RegsSameBut [x, 0xF] s t ∧ SameBut [.regs, .pc] s t ∧ t.pc = s.pc + 2)

/-- 8XY6 and 8XYE: V[X] is shifted, Y has no effect, VF is the bit shifted out unless it is the destination (R90, R92). -/
def Obligations.ShiftByOne : Prop :=
  ∀ (x y : Nibble) (s : State),
    decodeWord (0x8#4 ++ x ++ y ++ 0x6#4) = .ok (.shr x y) ∧ decodeWord (0x8#4 ++ x ++ y ++ 0xE#4) = .ok (.shl x y) ∧
    (∃ t, exec (.shr x y) s = .next t ∧ (t.reg x).toNat = (s.reg x).toNat / 2 ∧
      (x ≠ 0xF → (t.reg 0xF).toNat = (s.reg x).toNat % 2) ∧
      RegsSameBut [x, 0xF] s t ∧ SameBut [.regs, .pc] s t ∧ t.pc = s.pc + 2) ∧
    (∃ t, exec (.shl x y) s = .next t ∧ (t.reg x).toNat = 2 * (s.reg x).toNat % 256 ∧
      (x ≠ 0xF → (t.reg 0xF).toNat = (s.reg x).toNat / 128) ∧
      RegsSameBut [x, 0xF] s t ∧ SameBut [.regs, .pc] s t ∧ t.pc = s.pc + 2)

/-- CXNN: V[X] is the free byte of this draw, masked; the draw is taken, so the next one is another free byte (R93; log 3). It holds for every value of
the counter and says nothing of the byte. -/
def Obligations.RandomByteIsMasked : Prop :=
  ∀ (x : Nibble) (nn : Byte) (s : State),
    decodeWord (0xC#4 ++ x ++ nn) = .ok (.rnd x nn) ∧
    ∃ t, exec (.rnd x nn) s = .next t ∧ (∀ b, (t.reg x).getLsbD b = ((Config.freeByte s.draws).getLsbD b && nn.getLsbD b)) ∧
      t.draws = s.draws + 1 ∧ RegsSameBut [x] s t ∧ SameBut [.regs, .pc, .draws] s t ∧ t.pc = s.pc + 2

/-! ### Display -/

/-- 00E0 (R95). -/
def Obligations.ClearScreen : Prop :=
  ∀ s : State, decodeWord 0x00E0 = .ok .cls ∧
    ∃ t, exec .cls s = .next t ∧ (∀ px py, t.fb.pixel px py = false) ∧ SameBut [.screen, .pc] s t ∧ t.pc = s.pc + 2

/-- DXYN, pixel by pixel (R94, R96): a pixel flips exactly when a set sprite bit lands on it, VF is 1 exactly when a pixel went from 1 to 0, and an
access past the end of memory draws nothing. N = 0 draws nothing and never faults. -/
def Obligations.DrawPixelByPixel : Prop :=
  ∀ (x y n : Nibble) (s : State),
    decodeWord (0xD#4 ++ x ++ y ++ n) = .ok (.drw x y n) ∧
    (n.toNat = 0 ∨ s.i.toNat + n.toNat ≤ 4096 →
      ∃ t, exec (.drw x y n) s = .next t ∧
        (∀ px py, SpriteCovers s x y n px py → t.fb.pixel px py = !s.fb.pixel px py) ∧
        (∀ px py, ¬ SpriteCovers s x y n px py → t.fb.pixel px py = s.fb.pixel px py) ∧
        ((∃ px py, s.fb.pixel px py = true ∧ t.fb.pixel px py = false) → t.reg 0xF = 0x01) ∧
        ((∀ px py, s.fb.pixel px py = true → t.fb.pixel px py = true) → t.reg 0xF = 0x00) ∧
        RegsSameBut [0xF] s t ∧ SameBut [.regs, .screen, .pc] s t ∧ t.pc = s.pc + 2) ∧
    (n.toNat ≠ 0 ∧ 4096 < s.i.toNat + n.toNat →
      exec (.drw x y n) s = .next { s with
        run := .halted ⟨.outOfBounds, s.pc, some (0xD#4 ++ x ++ y ++ n), BitVec.ofNat 16 (max s.i.toNat 4096)⟩ })

/-- EMU's double-draw law as R97 reads it: after a second draw of the same sprite at the same place, with anything between that leaves I, the sprite bytes and
the framebuffer alone and V[X] and V[Y] as before the first draw, every pixel is as before the first, and VF is 1 exactly when the first draw set a pixel. -/
def Obligations.DoubleDrawRestores : Prop :=
  ∀ (x y n : Nibble) (s : State), n.toNat = 0 ∨ s.i.toNat + n.toNat ≤ 4096 →
    ∃ t, exec (.drw x y n) s = .next t ∧
      ∀ t', t'.fb = t.fb → t'.reg x = s.reg x → t'.reg y = s.reg y → t'.i = t.i →
        (∀ r, r < n.toNat → t'.mem.read (t.i.toNat + r) = t.mem.read (t.i.toNat + r)) →
        ∃ u, exec (.drw x y n) t' = .next u ∧ (∀ px py, u.fb.pixel px py = s.fb.pixel px py) ∧
          (u.reg 0xF = 0x01 ↔ ∃ px py, s.fb.pixel px py = false ∧ t.fb.pixel px py = true)

/-! ### Control flow -/

/-- 1NNN and BNNN: absolute targets, the sum of BNNN not reduced below 2^16 (R100, R101). -/
def Obligations.JumpTargets : Prop :=
  ∀ (nnn : Addr12) (s : State),
    decodeWord (0x1#4 ++ nnn) = .ok (.jp nnn) ∧ decodeWord (0xB#4 ++ nnn) = .ok (.jpV0 nnn) ∧
    (∃ t, exec (.jp nnn) s = .next t ∧ t.pc.toNat = nnn.toNat ∧ SameBut [.pc] s t) ∧
    (∃ t, exec (.jpV0 nnn) s = .next t ∧ t.pc.toNat = nnn.toNat + (s.reg 0).toNat ∧ SameBut [.pc] s t)

/-- A transfer does not check its target (R99): an odd target faults at the next fetch with pc = the target, and an even target at or above 0x1000
does too. -/
def Obligations.BadTargetsFaultAtNextFetch : Prop :=
  ∀ (nnn : Addr12) (s : State), s.run = .running →
    (nnn.toNat % 2 = 1 →
      ∃ t, exec (.jp nnn) s = .next t ∧
        step t = .next { t with run := .halted ⟨.misalignedFetch, nnn.setWidth 16, none, nnn.setWidth 16⟩ }) ∧
    (nnn.toNat % 2 = 1 → s.sp.val < 16 →
      ∃ t, exec (.call nnn) s = .next t ∧
        step t = .next { t with run := .halted ⟨.misalignedFetch, nnn.setWidth 16, none, nnn.setWidth 16⟩ }) ∧
    ((nnn.toNat + (s.reg 0).toNat) % 2 = 1 →
      ∃ t, exec (.jpV0 nnn) s = .next t ∧ step t = .next { t with run := .halted ⟨.misalignedFetch, t.pc, none, t.pc⟩ }) ∧
    ((nnn.toNat + (s.reg 0).toNat) % 2 = 0 → 0x1000 ≤ nnn.toNat + (s.reg 0).toNat →
      ∃ t, exec (.jpV0 nnn) s = .next t ∧ step t = .next { t with run := .halted ⟨.outOfBounds, t.pc, none, t.pc⟩ })

/-- 2NNN: the return address a + 2 is pushed (R26, R102); with 16 entries in use nothing changes and StackOverflow is recorded. -/
def Obligations.CallPushesReturnAddress : Prop :=
  ∀ (nnn : Addr12) (s : State),
    decodeWord (0x2#4 ++ nnn) = .ok (.call nnn) ∧
    (s.sp.val < 16 →
      ∃ t, exec (.call nnn) s = .next t ∧ t.pc.toNat = nnn.toNat ∧ t.sp.val = s.sp.val + 1 ∧
        (∀ k : Fin 16, t.stack.get k = if k.val = s.sp.val then s.pc + 2 else s.stack.get k) ∧ SameBut [.pc, .stack] s t) ∧
    (s.sp.val = 16 →
      exec (.call nnn) s = .next { s with run := .halted ⟨.stackOverflow, s.pc, some (0x2#4 ++ nnn), 16⟩ })

/-- 00EE: PC is the popped entry, unchecked, and the entries keep their contents (R27, R103); with none in use StackUnderflow is recorded. -/
def Obligations.ReturnPopsAddress : Prop :=
  ∀ s : State,
    decodeWord 0x00EE = .ok .ret ∧
    (0 < s.sp.val →
      ∃ t, exec .ret s = .next t ∧ t.sp.val + 1 = s.sp.val ∧ t.stack = s.stack ∧
        (∀ k : Fin 16, k.val + 1 = s.sp.val → t.pc = s.stack.get k) ∧ SameBut [.pc, .stack] s t) ∧
    (s.sp.val = 0 → exec .ret s = .next { s with run := .halted ⟨.stackUnderflow, s.pc, some 0x00EE, 0⟩ })

/-- EMU's call/return law as R109 reads it: any calls that fit on the stack, then as many returns, end at the return address of the outermost call, with
the stack depth as before and nothing else changed. -/
def Obligations.CallsThenReturnsComeBack : Prop :=
  ∀ (targets : List Addr12) (s : State), targets ≠ [] → s.sp.val + targets.length ≤ 16 →
    ∃ t, execAll (targets.map Instr.call ++ List.replicate targets.length Instr.ret) s = .next t ∧
      t.pc = s.pc + 2 ∧ t.sp = s.sp ∧ SameBut [.pc, .stack] s t

/-- 3XNN, 4XNN, 5XY0 and 9XY0: PC advances by 4 when the comparison holds and by 2 when it does not (R104 to R107). -/
def Obligations.ConditionalSkips : Prop :=
  ∀ (x y : Nibble) (nn : Byte) (s : State),
    decodeWord (0x3#4 ++ x ++ nn) = .ok (.seByte x nn) ∧ decodeWord (0x4#4 ++ x ++ nn) = .ok (.sneByte x nn) ∧
    decodeWord (0x5#4 ++ x ++ y ++ 0x0#4) = .ok (.seReg x y) ∧ decodeWord (0x9#4 ++ x ++ y ++ 0x0#4) = .ok (.sneReg x y) ∧
    (∃ t, exec (.seByte x nn) s = .next t ∧ t.pc = (if s.reg x = nn then s.pc + 4 else s.pc + 2) ∧ SameBut [.pc] s t) ∧
    (∃ t, exec (.sneByte x nn) s = .next t ∧ t.pc = (if s.reg x = nn then s.pc + 2 else s.pc + 4) ∧ SameBut [.pc] s t) ∧
    (∃ t, exec (.seReg x y) s = .next t ∧ t.pc = (if s.reg x = s.reg y then s.pc + 4 else s.pc + 2) ∧ SameBut [.pc] s t) ∧
    (∃ t, exec (.sneReg x y) s = .next t ∧ t.pc = (if s.reg x = s.reg y then s.pc + 2 else s.pc + 4) ∧ SameBut [.pc] s t)

/-- 0NNN (R108): under Nop only PC advances, and the block's SYS_POLICY is Nop (R9; log 1); under Fault the word is an illegal instruction. -/
def Obligations.SysUnderBothPolicies : Prop :=
  ∀ (nnn : Addr12) (s : State),
    (nnn ≠ 0x0E0 → nnn ≠ 0x0EE → decodeWord (0x0#4 ++ nnn) = .ok (.sys nnn)) ∧
    (∃ t, exec (.sys nnn) s = .next t ∧ t.pc = s.pc + 2 ∧ SameBut [.pc] s t) ∧
    (∃ t, sysUnder .nop nnn s = .next t ∧ t.pc = s.pc + 2 ∧ SameBut [.pc] s t) ∧
    sysUnder .fault nnn s =
      .next { s with run := .halted ⟨.illegalInstruction, s.pc, some (0x0#4 ++ nnn), 0x0#4 ++ nnn⟩ }

/-! ### Timers and keys -/

/-- FX07, FX15 and FX18 (R110 to R112); a nonzero ST turns `sound_on` on, a zero ST turns it off. -/
def Obligations.TimerTransfers : Prop :=
  ∀ (x : Nibble) (s : State),
    decodeWord (0xF#4 ++ x ++ 0x07#8) = .ok (.ldVxDt x) ∧ decodeWord (0xF#4 ++ x ++ 0x15#8) = .ok (.ldDtVx x) ∧
    decodeWord (0xF#4 ++ x ++ 0x18#8) = .ok (.ldStVx x) ∧
    (∃ t, exec (.ldVxDt x) s = .next t ∧ t.reg x = s.dt ∧
      RegsSameBut [x] s t ∧ SameBut [.regs, .pc] s t ∧ t.pc = s.pc + 2) ∧
    (∃ t, exec (.ldDtVx x) s = .next t ∧ t.dt = s.reg x ∧ SameBut [.dt, .pc] s t ∧ t.pc = s.pc + 2) ∧
    (∃ t, exec (.ldStVx x) s = .next t ∧ t.st = s.reg x ∧ (t.soundOn = true ↔ s.reg x ≠ 0) ∧
      SameBut [.st, .pc] s t ∧ t.pc = s.pc + 2)

/-- EX9E and EXA1: skip by the key numbered V[X]; above 15 there is no such key and OperandRange is recorded (R113, R114). -/
def Obligations.KeySkips : Prop :=
  ∀ (x : Nibble) (s : State),
    decodeWord (0xE#4 ++ x ++ 0x9E#8) = .ok (.skp x) ∧ decodeWord (0xE#4 ++ x ++ 0xA1#8) = .ok (.sknp x) ∧
    (∀ k : Nibble, (s.reg x).toNat = k.toNat →
      (∃ t, exec (.skp x) s = .next t ∧ t.pc = (if s.keyPressed k = true then s.pc + 4 else s.pc + 2) ∧ SameBut [.pc] s t) ∧
      (∃ t, exec (.sknp x) s = .next t ∧ t.pc = (if s.keyPressed k = true then s.pc + 2 else s.pc + 4) ∧ SameBut [.pc] s t)) ∧
    (15 < (s.reg x).toNat →
      exec (.skp x) s = .next { s with
        run := .halted ⟨.operandRange, s.pc, some (0xE#4 ++ x ++ 0x9E#8), (s.reg x).setWidth 16⟩ } ∧
      exec (.sknp x) s = .next { s with
        run := .halted ⟨.operandRange, s.pc, some (0xE#4 ++ x ++ 0xA1#8), (s.reg x).setWidth 16⟩ })

/-- FX0A: the machine awaits a key for V[X], which is not yet written; PC stays a + 2 (R115). From there a step only waits, ticks and reads work as
usual, and the press of a key that is not pressed ends the wait, while one that is already pressed does not. -/
def Obligations.KeyWaitBegins : Prop :=
  ∀ (x : Nibble) (s : State),
    decodeWord (0xF#4 ++ x ++ 0x0A#8) = .ok (.ldVxK x) ∧
    ∃ t, exec (.ldVxK x) s = .next t ∧ t.run = .awaitingKey x ∧ SameBut [.run, .pc] s t ∧ t.pc = s.pc + 2 ∧
      (s.run = .running → resultOf s.run t.run = .executed) ∧ step t = .next t ∧ stepResult t = some .waiting ∧
      t.tick.dt.toNat = t.dt.toNat - 1 ∧ t.tick.st.toNat = t.st.toNat - 1 ∧ t.tick.run = t.run ∧ t.readFramebuffer = t.fb ∧
      ∀ k, (t.setKey k true).run = if t.keyPressed k = true then .awaitingKey x else .running

/-- While a key is awaited, no operation but a press of a key or a load moves the machine on: steps, ticks, reads and releases leave the run state, PC,
the registers and memory as they are (R65, R115, R116). -/
def Obligations.KeyWaitLasts : Prop :=
  ∀ (es : List HostEvent) (s t : State) (x : Nibble), NoPress es → s.run = .awaitingKey x → hostRun es s = .next t →
    SameBut [.dt, .st, .keys] s t

/-- `set_key` (R42, R116): the key is written; only a press of a key not pressed before, while a key is awaited, also writes V[x] and sets Running. -/
def Obligations.SetKeyWritesAndReleases : Prop :=
  ∀ (k : Nibble) (pressed : Bool) (s : State),
    (s.setKey k pressed).keyPressed k = pressed ∧
    (∀ j, j ≠ k → (s.setKey k pressed).keyPressed j = s.keyPressed j) ∧
    SameBut [.regs, .keys, .run] s (s.setKey k pressed) ∧
    (∀ x, s.run = .awaitingKey x → s.keyPressed k = false → pressed = true →
      ((s.setKey k pressed).reg x).toNat = k.toNat ∧ RegsSameBut [x] s (s.setKey k pressed) ∧
      (s.setKey k pressed).run = .running) ∧
    ((∀ x, s.run ≠ .awaitingKey x) ∨ s.keyPressed k = true ∨ pressed = false →
      SameBut [.keys] s (s.setKey k pressed))

/-! ### Index register and memory -/

/-- ANNN and FX1E (R117, R118). -/
def Obligations.IndexLoadAndAdd : Prop :=
  ∀ (nnn : Addr12) (x : Nibble) (s : State),
    decodeWord (0xA#4 ++ nnn) = .ok (.ldI nnn) ∧ decodeWord (0xF#4 ++ x ++ 0x1E#8) = .ok (.addIVx x) ∧
    (∃ t, exec (.ldI nnn) s = .next t ∧ t.i.toNat = nnn.toNat ∧ SameBut [.index, .pc] s t ∧ t.pc = s.pc + 2) ∧
    (∃ t, exec (.addIVx x) s = .next t ∧ t.i.toNat = (s.i.toNat + (s.reg x).toNat) % 65536 ∧
      SameBut [.index, .pc] s t ∧ t.pc = s.pc + 2)

/-- FX29: I is FONT_BASE + 5 * V[X] with FONT_BASE = 0x000 (R119; log 2); above 15 OperandRange is recorded. -/
def Obligations.FontAddress : Prop :=
  ∀ (x : Nibble) (s : State),
    decodeWord (0xF#4 ++ x ++ 0x29#8) = .ok (.ldFVx x) ∧
    ((s.reg x).toNat ≤ 15 →
      ∃ t, exec (.ldFVx x) s = .next t ∧ t.i.toNat = 0x000 + 5 * (s.reg x).toNat ∧ SameBut [.index, .pc] s t ∧ t.pc = s.pc + 2) ∧
    (15 < (s.reg x).toNat →
      exec (.ldFVx x) s = .next { s with
        run := .halted ⟨.operandRange, s.pc, some (0xF#4 ++ x ++ 0x29#8), (s.reg x).setWidth 16⟩ })

/-- FX33: the decimal digits of V[X] at I, I+1 and I+2, most significant first (R120); out of range, nothing is written. -/
def Obligations.BcdStore : Prop :=
  ∀ (x : Nibble) (s : State),
    decodeWord (0xF#4 ++ x ++ 0x33#8) = .ok (.ldBVx x) ∧
    (s.i.toNat + 2 < 4096 →
      ∃ t, exec (.ldBVx x) s = .next t ∧ (t.mem.read s.i.toNat).toNat = (s.reg x).toNat / 100 ∧
        (t.mem.read (s.i.toNat + 1)).toNat = (s.reg x).toNat / 10 % 10 ∧
        (t.mem.read (s.i.toNat + 2)).toNat = (s.reg x).toNat % 10 ∧
        BytesSameOutside s.i.toNat 3 s t ∧ SameBut [.memory, .pc] s t ∧ t.pc = s.pc + 2) ∧
    (4096 ≤ s.i.toNat + 2 →
      exec (.ldBVx x) s = .next { s with
        run := .halted ⟨.outOfBounds, s.pc, some (0xF#4 ++ x ++ 0x33#8), BitVec.ofNat 16 (max s.i.toNat 4096)⟩ })

/-- FX55: V0 .. V[X] at I .. I + X, I unchanged (R121); out of range, nothing is written. -/
def Obligations.RegisterStore : Prop :=
  ∀ (x : Nibble) (s : State),
    decodeWord (0xF#4 ++ x ++ 0x55#8) = .ok (.storeRegs x) ∧
    (s.i.toNat + x.toNat < 4096 →
      ∃ t, exec (.storeRegs x) s = .next t ∧ (∀ r : Nibble, r.toNat ≤ x.toNat → t.mem.read (s.i.toNat + r.toNat) = s.reg r) ∧
        BytesSameOutside s.i.toNat (x.toNat + 1) s t ∧ SameBut [.memory, .pc] s t ∧ t.pc = s.pc + 2) ∧
    (4096 ≤ s.i.toNat + x.toNat →
      exec (.storeRegs x) s = .next { s with
        run := .halted ⟨.outOfBounds, s.pc, some (0xF#4 ++ x ++ 0x55#8), BitVec.ofNat 16 (max s.i.toNat 4096)⟩ })

/-- FX65: V0 .. V[X] from I .. I + X, the other registers and I unchanged (R122); out of range, nothing is read or written. -/
def Obligations.RegisterLoad : Prop :=
  ∀ (x : Nibble) (s : State),
    decodeWord (0xF#4 ++ x ++ 0x65#8) = .ok (.loadRegs x) ∧
    (s.i.toNat + x.toNat < 4096 →
      ∃ t, exec (.loadRegs x) s = .next t ∧
        (∀ r : Nibble, t.reg r = if r.toNat ≤ x.toNat then s.mem.read (s.i.toNat + r.toNat) else s.reg r) ∧
        SameBut [.regs, .pc] s t ∧ t.pc = s.pc + 2) ∧
    (4096 ≤ s.i.toNat + x.toNat →
      exec (.loadRegs x) s = .next { s with
        run := .halted ⟨.outOfBounds, s.pc, some (0xF#4 ++ x ++ 0x65#8), BitVec.ofNat 16 (max s.i.toNat 4096)⟩ })

/-- What FX55 stored, FX65 loads back, whatever happened to the registers in between (from R121 and R122). -/
def Obligations.StoreThenLoadRestoresRegisters : Prop :=
  ∀ (x : Nibble) (s : State), s.i.toNat + x.toNat < 4096 →
    ∃ t, exec (.storeRegs x) s = .next t ∧
      ∀ t', t'.i = t.i → t'.mem = t.mem →
        ∃ u, exec (.loadRegs x) t' = .next u ∧ ∀ r : Nibble, r.toNat ≤ x.toNat → u.reg r = s.reg r

/-- Self-modifying code (from R57 and R64, as R60 draws it): a running program that stores over the word PC will hold executes the new word in the next
step. -/
def Obligations.StoredCodeRunsNext : Prop :=
  ∀ (x : Nibble) (s : State) (j : Instr), s.run = .running → s.pc.toNat % 2 = 0 → s.i = s.pc + 2 → s.pc.toNat + 3 < 4096 →
    1 ≤ x.toNat → s.i.toNat + x.toNat < 4096 → decode [s.reg 0, s.reg 1] = .ok (j, []) →
    ∃ t, exec (.storeRegs x) s = .next t ∧ step t = exec j t

/-! ### Memory -/

/-- R57: a read gives the most recent write to that address in program order, or the reset value if there was none. -/
def Obligations.ReadsGiveLatestWrite : Prop :=
  ∀ (writes : List (Nat × Byte)) (a : Nat),
    Memory.read (writes.foldl (fun m w => Memory.write m w.1 w.2) State.reset.mem) a =
      match writes.reverse.find? (fun w => w.1 == a) with
      | some w => w.2
      | none => State.reset.mem.read a

/-- Canonical memories that read the same everywhere are the same data (log 8). -/
def Obligations.CanonicalMemoriesAreEqual : Prop :=
  ∀ m n : Memory, m.wf → n.wf → (∀ a, m.read a = n.read a) → m = n

/-! ### Host operations and reset -/

/-- `tick` (R41, R134): in every run state both timers go down by one, stop at 0, and nothing else changes. -/
def Obligations.TickCountsDown : Prop :=
  ∀ s : State, s.tick.dt.toNat = s.dt.toNat - 1 ∧ s.tick.st.toNat = s.st.toNat - 1 ∧ SameBut [.dt, .st] s s.tick

/-- R135: over any run of host operations in which no FX15 or FX18 executes and no load happens, each timer goes down by the number of ticks, clamped at
0, however many instructions executed. -/
def Obligations.TimersCountTicksNotSteps : Prop :=
  ∀ (es : List HostEvent) (s t : State), TimersUntouched es s → hostRun es s = .next t →
    t.dt.toNat = s.dt.toNat - tickCount es ∧ t.st.toNat = s.st.toNat - tickCount es

/-- R112 and R44: after FX18, `sound_on` holds until as many ticks have come as V[X] held. -/
def Obligations.SoundLastsAsLongAsSet : Prop :=
  ∀ (x : Nibble) (s t u : State) (n : Nat), exec (.ldStVx x) s = .next t → hostRun (List.replicate n .tick) t = .next u →
    (u.soundOn = true ↔ n < (s.reg x).toNat)

/-- `Reset()` sets every piece of state to its reset value (R147, with the table of R37), from any state; the power-on state is a reset state (R149). -/
def Obligations.ResetValues : Prop :=
  State.reset.resetOf = State.reset ∧
  ∀ s : State,
    (∀ r, s.resetOf.reg r = 0) ∧ s.resetOf.i = 0 ∧ s.resetOf.pc = 0x200 ∧ s.resetOf.sp = 0 ∧
    (∀ k : Fin 16, s.resetOf.stack.get k = 0) ∧ s.resetOf.dt = 0 ∧ s.resetOf.st = 0 ∧
    (∀ px py, s.resetOf.fb.pixel px py = false) ∧ (∀ k, s.resetOf.keyPressed k = false) ∧
    s.resetOf.run = .running ∧ s.resetOf.faultRecord = none ∧
    (∀ a, 80 ≤ a → s.resetOf.mem.read a = 0) ∧ (List.range 80).map s.resetOf.mem.read = Config.fontData

/-- The font table of R55 after any load: glyph d is the five bytes from 0x000 + 5 * d on. -/
def Obligations.FontGlyphsAfterLoad : Prop :=
  ∀ (s : State) (image : List Byte), image.length ≤ 3584 →
    ∃ t, s.load image = (.ok, t) ∧
      (List.range 16).map (fun d => (List.range 5).map (fun k => t.mem.read (0x000 + 5 * d + k))) =
        [[0xF0, 0x90, 0x90, 0x90, 0xF0], [0x20, 0x60, 0x20, 0x20, 0x70], [0xF0, 0x10, 0xF0, 0x80, 0xF0], [0xF0, 0x10, 0xF0, 0x10, 0xF0],
         [0x90, 0x90, 0xF0, 0x10, 0x10], [0xF0, 0x80, 0xF0, 0x10, 0xF0], [0xF0, 0x80, 0xF0, 0x90, 0xF0], [0xF0, 0x10, 0x20, 0x40, 0x40],
         [0xF0, 0x90, 0xF0, 0x90, 0xF0], [0xF0, 0x90, 0xF0, 0x10, 0xF0], [0xF0, 0x90, 0xF0, 0x90, 0x90], [0xE0, 0x90, 0xE0, 0x90, 0xE0],
         [0xF0, 0x80, 0x80, 0x80, 0xF0], [0xE0, 0x90, 0x90, 0x90, 0xE0], [0xF0, 0x80, 0xF0, 0x80, 0xF0], [0xF0, 0x80, 0xF0, 0x80, 0x80]]

/-- `load` (R146, R148, R150): an image of at most 3584 bytes resets the machine and stands from 0x200 on, the bytes after it 0; a longer one is refused
and nothing changes. -/
def Obligations.LoadInstallsOrRefuses : Prop :=
  ∀ (image : List Byte) (s : State),
    (image.length ≤ 3584 →
      ∃ t, s.load image = (.ok, t) ∧ SameBut [.memory, .draws] State.reset t ∧
        (∀ k (h : k < image.length), t.mem.read (0x200 + k) = image[k]) ∧
        (∀ a, 0x200 + image.length ≤ a → t.mem.read a = 0) ∧
        (∀ a, a < 0x200 → t.mem.read a = State.reset.mem.read a)) ∧
    (3584 < image.length → s.load image = (.outOfBounds, s))

/-- R149: the power-on state is the state after `load` of an empty image; from it the machine steps through zeros, and the step at 0x1000 faults with
OutOfBounds; under SYS_POLICY = Fault, the first of these words is an illegal instruction. -/
def Obligations.PowerOnWalksZeros : Prop :=
  State.reset.load [] = (.ok, State.reset) ∧
  (∀ n, n ≤ 1792 →
    hostRun (List.replicate n .step) State.reset = .next { State.reset with pc := BitVec.ofNat 16 (0x200 + 2 * n) }) ∧
  hostRun (List.replicate 1793 .step) State.reset =
    .next { State.reset with pc := 0x1000, run := .halted ⟨.outOfBounds, 0x1000, none, 0x1000⟩ } ∧
  State.reset.fetchDecode = .ok (.sys 0x000) ∧
  sysUnder .fault 0x000 State.reset = .next { State.reset with run := .halted ⟨.illegalInstruction, 0x200, some 0x0000, 0x0000⟩ }

/-- R127: what each host operation does to a halted machine. R128: over any run of operations without a load, the first fault stays and nothing but the
timers and the keypad changes. -/
def Obligations.HaltLastsUntilLoad : Prop :=
  (∀ (s : State) (f : FaultRecord), s.run = .halted f →
    step s = .next s ∧ stepResult s = some (.fault f) ∧
    s.tick.dt.toNat = s.dt.toNat - 1 ∧ s.tick.st.toNat = s.st.toNat - 1 ∧
    (∀ k pressed, (s.setKey k pressed).keyPressed k = pressed ∧ SameBut [.keys] s (s.setKey k pressed)) ∧
    s.readFramebuffer = s.fb ∧ s.status = (.halted f, some f) ∧
    ∀ image, image.length ≤ 3584 → ∃ t, s.load image = (.ok, t) ∧ t.status = (.running, none)) ∧
  ∀ (es : List HostEvent) (s t : State) (f : FaultRecord), NoLoad es → s.run = .halted f → hostRun es s = .next t →
    t.run = .halted f ∧ SameBut [.dt, .st, .keys] s t

/-- Every order of host operations runs to its end (R143): the model stops on none. -/
def Obligations.HostRunsComplete : Prop :=
  ∀ (es : List HostEvent) (s : State), ∃ t, hostRun es s = .next t

/-! ### Invariants -/

/-- Memory stays in its canonical form (log 8). -/
def Obligations.StepKeepsMemoryCanonical : Prop :=
  ∀ s t, MemoryCanonical s → step s = .next t → MemoryCanonical t

/-- PC stays at most 0x10FE and the stack holds even addresses at most 0x1000: no PC update wraps past 0xFFFF (from R22, R25 and R100 to R107, as R24
draws it). -/
def Obligations.StepKeepsPcAndStackInRange : Prop :=
  ∀ s t, PcAndStackInRange s → step s = .next t → PcAndStackInRange t

/-- A halted machine's fault record stays the one R33, R123 and R124 give for its kind in the state it froze, and InvalidRegister is never recorded
(R20). -/
def Obligations.StepKeepsFaultRecordFitting : Prop :=
  ∀ s t, FaultRecordFits s → step s = .next t → FaultRecordFits t

/-- The invariant holds at power-on: memory in the model's canonical form (log 8), PC and stack in the bounds of R24, the record of R33. -/
def Obligations.InvariantAtReset : Prop := Inv State.reset

/-- The invariant holds after every sequence of host operations, in any order (R143), from any state that has it: memory in the model's canonical form
(log 8, the model's choice), PC and stack in the bounds that R24 draws, and the fault record of R33. -/
def Obligations.HostRunsKeepInvariant : Prop :=
  ∀ (es : List HostEvent) (s t : State), Inv s → hostRun es s = .next t → Inv t
end

