-- ==== Sys2Proof/Laws/State.lean ====
section
/-! SUPPORT. One lemma for each field of State and each named update that leaves it alone, and the field the update writes: no later proof unfolds an
update. -/

namespace Sys2Proof.Machine

/-! ### advance -/

@[simp] theorem State.advance_v (s : State) : s.advance.v = s.v := rfl
@[simp] theorem State.advance_i (s : State) : s.advance.i = s.i := rfl
@[simp] theorem State.advance_stack (s : State) : s.advance.stack = s.stack := rfl
@[simp] theorem State.advance_sp (s : State) : s.advance.sp = s.sp := rfl
@[simp] theorem State.advance_dt (s : State) : s.advance.dt = s.dt := rfl
@[simp] theorem State.advance_st (s : State) : s.advance.st = s.st := rfl
@[simp] theorem State.advance_fb (s : State) : s.advance.fb = s.fb := rfl
@[simp] theorem State.advance_key (s : State) : s.advance.key = s.key := rfl
@[simp] theorem State.advance_run (s : State) : s.advance.run = s.run := rfl
@[simp] theorem State.advance_mem (s : State) : s.advance.mem = s.mem := rfl
@[simp] theorem State.advance_draws (s : State) : s.advance.draws = s.draws := rfl
@[simp] theorem State.advance_reg (s : State) (r : Nibble) : s.advance.reg r = s.reg r := rfl
@[simp] theorem State.advance_keyPressed (s : State) (j : Nibble) : s.advance.keyPressed j = s.keyPressed j := rfl

/-! ### jump -/

@[simp] theorem State.jump_v (s : State) (w : Word) : (s.jump w).v = s.v := rfl
@[simp] theorem State.jump_i (s : State) (w : Word) : (s.jump w).i = s.i := rfl
@[simp] theorem State.jump_stack (s : State) (w : Word) : (s.jump w).stack = s.stack := rfl
@[simp] theorem State.jump_sp (s : State) (w : Word) : (s.jump w).sp = s.sp := rfl
@[simp] theorem State.jump_dt (s : State) (w : Word) : (s.jump w).dt = s.dt := rfl
@[simp] theorem State.jump_st (s : State) (w : Word) : (s.jump w).st = s.st := rfl
@[simp] theorem State.jump_fb (s : State) (w : Word) : (s.jump w).fb = s.fb := rfl
@[simp] theorem State.jump_key (s : State) (w : Word) : (s.jump w).key = s.key := rfl
@[simp] theorem State.jump_run (s : State) (w : Word) : (s.jump w).run = s.run := rfl
@[simp] theorem State.jump_mem (s : State) (w : Word) : (s.jump w).mem = s.mem := rfl
@[simp] theorem State.jump_draws (s : State) (w : Word) : (s.jump w).draws = s.draws := rfl
@[simp] theorem State.jump_reg (s : State) (w : Word) (r : Nibble) : (s.jump w).reg r = s.reg r := rfl
@[simp] theorem State.jump_keyPressed (s : State) (w : Word) (j : Nibble) : (s.jump w).keyPressed j = s.keyPressed j := rfl

/-! ### skipIf -/

@[simp] theorem State.skipIf_v (s : State) (c : Bool) : (s.skipIf c).v = s.v := by cases c <;> rfl
@[simp] theorem State.skipIf_i (s : State) (c : Bool) : (s.skipIf c).i = s.i := by cases c <;> rfl
@[simp] theorem State.skipIf_stack (s : State) (c : Bool) : (s.skipIf c).stack = s.stack := by cases c <;> rfl
@[simp] theorem State.skipIf_sp (s : State) (c : Bool) : (s.skipIf c).sp = s.sp := by cases c <;> rfl
@[simp] theorem State.skipIf_dt (s : State) (c : Bool) : (s.skipIf c).dt = s.dt := by cases c <;> rfl
@[simp] theorem State.skipIf_st (s : State) (c : Bool) : (s.skipIf c).st = s.st := by cases c <;> rfl
@[simp] theorem State.skipIf_fb (s : State) (c : Bool) : (s.skipIf c).fb = s.fb := by cases c <;> rfl
@[simp] theorem State.skipIf_key (s : State) (c : Bool) : (s.skipIf c).key = s.key := by cases c <;> rfl
@[simp] theorem State.skipIf_run (s : State) (c : Bool) : (s.skipIf c).run = s.run := by cases c <;> rfl
@[simp] theorem State.skipIf_mem (s : State) (c : Bool) : (s.skipIf c).mem = s.mem := by cases c <;> rfl
@[simp] theorem State.skipIf_draws (s : State) (c : Bool) : (s.skipIf c).draws = s.draws := by cases c <;> rfl
@[simp] theorem State.skipIf_reg (s : State) (c : Bool) (r : Nibble) : (s.skipIf c).reg r = s.reg r := by cases c <;> rfl
@[simp] theorem State.skipIf_keyPressed (s : State) (c : Bool) (j : Nibble) : (s.skipIf c).keyPressed j = s.keyPressed j := by cases c <;> rfl

/-! ### setReg -/

@[simp] theorem State.setReg_i (s : State) (x : Nibble) (b : Byte) : (s.setReg x b).i = s.i := rfl
@[simp] theorem State.setReg_pc (s : State) (x : Nibble) (b : Byte) : (s.setReg x b).pc = s.pc := rfl
@[simp] theorem State.setReg_stack (s : State) (x : Nibble) (b : Byte) : (s.setReg x b).stack = s.stack := rfl
@[simp] theorem State.setReg_sp (s : State) (x : Nibble) (b : Byte) : (s.setReg x b).sp = s.sp := rfl
@[simp] theorem State.setReg_dt (s : State) (x : Nibble) (b : Byte) : (s.setReg x b).dt = s.dt := rfl
@[simp] theorem State.setReg_st (s : State) (x : Nibble) (b : Byte) : (s.setReg x b).st = s.st := rfl
@[simp] theorem State.setReg_fb (s : State) (x : Nibble) (b : Byte) : (s.setReg x b).fb = s.fb := rfl
@[simp] theorem State.setReg_key (s : State) (x : Nibble) (b : Byte) : (s.setReg x b).key = s.key := rfl
@[simp] theorem State.setReg_run (s : State) (x : Nibble) (b : Byte) : (s.setReg x b).run = s.run := rfl
@[simp] theorem State.setReg_mem (s : State) (x : Nibble) (b : Byte) : (s.setReg x b).mem = s.mem := rfl
@[simp] theorem State.setReg_draws (s : State) (x : Nibble) (b : Byte) : (s.setReg x b).draws = s.draws := rfl
@[simp] theorem State.setReg_keyPressed (s : State) (x : Nibble) (b : Byte) (j : Nibble) : (s.setReg x b).keyPressed j = s.keyPressed j := rfl

/-! ### setFlag -/

@[simp] theorem State.setFlag_i (s : State) (b : Byte) : (s.setFlag b).i = s.i := rfl
@[simp] theorem State.setFlag_pc (s : State) (b : Byte) : (s.setFlag b).pc = s.pc := rfl
@[simp] theorem State.setFlag_stack (s : State) (b : Byte) : (s.setFlag b).stack = s.stack := rfl
@[simp] theorem State.setFlag_sp (s : State) (b : Byte) : (s.setFlag b).sp = s.sp := rfl
@[simp] theorem State.setFlag_dt (s : State) (b : Byte) : (s.setFlag b).dt = s.dt := rfl
@[simp] theorem State.setFlag_st (s : State) (b : Byte) : (s.setFlag b).st = s.st := rfl
@[simp] theorem State.setFlag_fb (s : State) (b : Byte) : (s.setFlag b).fb = s.fb := rfl
@[simp] theorem State.setFlag_key (s : State) (b : Byte) : (s.setFlag b).key = s.key := rfl
@[simp] theorem State.setFlag_run (s : State) (b : Byte) : (s.setFlag b).run = s.run := rfl
@[simp] theorem State.setFlag_mem (s : State) (b : Byte) : (s.setFlag b).mem = s.mem := rfl
@[simp] theorem State.setFlag_draws (s : State) (b : Byte) : (s.setFlag b).draws = s.draws := rfl
@[simp] theorem State.setFlag_keyPressed (s : State) (b : Byte) (j : Nibble) : (s.setFlag b).keyPressed j = s.keyPressed j := rfl

/-! ### setFlagThenReg -/

@[simp] theorem State.setFlagThenReg_i (s : State) (x : Nibble) (f b : Byte) : (s.setFlagThenReg x f b).i = s.i := rfl
@[simp] theorem State.setFlagThenReg_pc (s : State) (x : Nibble) (f b : Byte) : (s.setFlagThenReg x f b).pc = s.pc := rfl
@[simp] theorem State.setFlagThenReg_stack (s : State) (x : Nibble) (f b : Byte) : (s.setFlagThenReg x f b).stack = s.stack := rfl
@[simp] theorem State.setFlagThenReg_sp (s : State) (x : Nibble) (f b : Byte) : (s.setFlagThenReg x f b).sp = s.sp := rfl
@[simp] theorem State.setFlagThenReg_dt (s : State) (x : Nibble) (f b : Byte) : (s.setFlagThenReg x f b).dt = s.dt := rfl
@[simp] theorem State.setFlagThenReg_st (s : State) (x : Nibble) (f b : Byte) : (s.setFlagThenReg x f b).st = s.st := rfl
@[simp] theorem State.setFlagThenReg_fb (s : State) (x : Nibble) (f b : Byte) : (s.setFlagThenReg x f b).fb = s.fb := rfl
@[simp] theorem State.setFlagThenReg_key (s : State) (x : Nibble) (f b : Byte) : (s.setFlagThenReg x f b).key = s.key := rfl
@[simp] theorem State.setFlagThenReg_run (s : State) (x : Nibble) (f b : Byte) : (s.setFlagThenReg x f b).run = s.run := rfl
@[simp] theorem State.setFlagThenReg_mem (s : State) (x : Nibble) (f b : Byte) : (s.setFlagThenReg x f b).mem = s.mem := rfl
@[simp] theorem State.setFlagThenReg_draws (s : State) (x : Nibble) (f b : Byte) : (s.setFlagThenReg x f b).draws = s.draws := rfl
@[simp] theorem State.setFlagThenReg_keyPressed (s : State) (x : Nibble) (f b : Byte) (j : Nibble) : (s.setFlagThenReg x f b).keyPressed j = s.keyPressed j := rfl

/-! ### raise -/

@[simp] theorem State.raise_v (s : State) (k : FaultKind) (w : Option Word) (d : Word) : (s.raise k w d).v = s.v := rfl
@[simp] theorem State.raise_i (s : State) (k : FaultKind) (w : Option Word) (d : Word) : (s.raise k w d).i = s.i := rfl
@[simp] theorem State.raise_pc (s : State) (k : FaultKind) (w : Option Word) (d : Word) : (s.raise k w d).pc = s.pc := rfl
@[simp] theorem State.raise_stack (s : State) (k : FaultKind) (w : Option Word) (d : Word) : (s.raise k w d).stack = s.stack := rfl
@[simp] theorem State.raise_sp (s : State) (k : FaultKind) (w : Option Word) (d : Word) : (s.raise k w d).sp = s.sp := rfl
@[simp] theorem State.raise_dt (s : State) (k : FaultKind) (w : Option Word) (d : Word) : (s.raise k w d).dt = s.dt := rfl
@[simp] theorem State.raise_st (s : State) (k : FaultKind) (w : Option Word) (d : Word) : (s.raise k w d).st = s.st := rfl
@[simp] theorem State.raise_fb (s : State) (k : FaultKind) (w : Option Word) (d : Word) : (s.raise k w d).fb = s.fb := rfl
@[simp] theorem State.raise_key (s : State) (k : FaultKind) (w : Option Word) (d : Word) : (s.raise k w d).key = s.key := rfl
@[simp] theorem State.raise_mem (s : State) (k : FaultKind) (w : Option Word) (d : Word) : (s.raise k w d).mem = s.mem := rfl
@[simp] theorem State.raise_draws (s : State) (k : FaultKind) (w : Option Word) (d : Word) : (s.raise k w d).draws = s.draws := rfl
@[simp] theorem State.raise_reg (s : State) (k : FaultKind) (w : Option Word) (d : Word) (r : Nibble) : (s.raise k w d).reg r = s.reg r := rfl
@[simp] theorem State.raise_keyPressed (s : State) (k : FaultKind) (w : Option Word) (d : Word) (j : Nibble) : (s.raise k w d).keyPressed j = s.keyPressed j := rfl

/-! ### draw8 -/

@[simp] theorem State.draw8_v (s : State) : s.draw8.2.v = s.v := rfl
@[simp] theorem State.draw8_i (s : State) : s.draw8.2.i = s.i := rfl
@[simp] theorem State.draw8_pc (s : State) : s.draw8.2.pc = s.pc := rfl
@[simp] theorem State.draw8_stack (s : State) : s.draw8.2.stack = s.stack := rfl
@[simp] theorem State.draw8_sp (s : State) : s.draw8.2.sp = s.sp := rfl
@[simp] theorem State.draw8_dt (s : State) : s.draw8.2.dt = s.dt := rfl
@[simp] theorem State.draw8_st (s : State) : s.draw8.2.st = s.st := rfl
@[simp] theorem State.draw8_fb (s : State) : s.draw8.2.fb = s.fb := rfl
@[simp] theorem State.draw8_key (s : State) : s.draw8.2.key = s.key := rfl
@[simp] theorem State.draw8_run (s : State) : s.draw8.2.run = s.run := rfl
@[simp] theorem State.draw8_mem (s : State) : s.draw8.2.mem = s.mem := rfl
@[simp] theorem State.draw8_reg (s : State) (r : Nibble) : s.draw8.2.reg r = s.reg r := rfl
@[simp] theorem State.draw8_keyPressed (s : State) (j : Nibble) : s.draw8.2.keyPressed j = s.keyPressed j := rfl

/-! ### tick -/

@[simp] theorem State.tick_v (s : State) : s.tick.v = s.v := rfl
@[simp] theorem State.tick_i (s : State) : s.tick.i = s.i := rfl
@[simp] theorem State.tick_pc (s : State) : s.tick.pc = s.pc := rfl
@[simp] theorem State.tick_stack (s : State) : s.tick.stack = s.stack := rfl
@[simp] theorem State.tick_sp (s : State) : s.tick.sp = s.sp := rfl
@[simp] theorem State.tick_fb (s : State) : s.tick.fb = s.fb := rfl
@[simp] theorem State.tick_key (s : State) : s.tick.key = s.key := rfl
@[simp] theorem State.tick_run (s : State) : s.tick.run = s.run := rfl
@[simp] theorem State.tick_mem (s : State) : s.tick.mem = s.mem := rfl
@[simp] theorem State.tick_draws (s : State) : s.tick.draws = s.draws := rfl
@[simp] theorem State.tick_reg (s : State) (r : Nibble) : s.tick.reg r = s.reg r := rfl
@[simp] theorem State.tick_keyPressed (s : State) (j : Nibble) : s.tick.keyPressed j = s.keyPressed j := rfl

/-! ### What each update writes -/

@[simp] theorem State.advance_pc (s : State) : s.advance.pc = s.pc + 2 := rfl
@[simp] theorem State.jump_pc (s : State) (w : Word) : (s.jump w).pc = w := rfl
@[simp] theorem State.draw8_draws (s : State) : s.draw8.2.draws = s.draws + 1 := rfl
@[simp] theorem State.draw8_byte (s : State) : s.draw8.1 = Config.freeByte s.draws := rfl
@[simp] theorem State.raise_run (s : State) (k : FaultKind) (w : Option Word) (d : Word) :
    (s.raise k w d).run = .halted ⟨k, s.pc, w, d⟩ := rfl
theorem State.skipIf_pc (s : State) (c : Bool) : (s.skipIf c).pc = if c then s.pc + 2 else s.pc := by cases c <;> rfl

end Sys2Proof.Machine
end

