-- ==== Sys2Proof/Laws/Memory.lean ====
section
/-! SUPPORT. Memory: read after write, the canonical form, and the bound check (spec/20_memory.md R46, R47, R57). -/

namespace Sys2Proof.Machine

@[simp] theorem Memory.read_nil (a : Nat) : Memory.read [] a = Memory.initial a := rfl

theorem Memory.read_put (m : Memory) (a c : Nat) (b : Byte) :
    (Memory.put m a b).read c = if a = c then b else m.read c := by
  induction m with
  | nil => simp [Memory.put, Memory.read]
  | cons e m ih =>
    obtain ⟨k, d⟩ := e
    simp only [Memory.put]
    split
    · simp [Memory.read]
    · split
      · subst_vars; simp only [Memory.read]; split <;> rfl
      · simp only [Memory.read, ih]; grind

theorem Memory.read_drop (m : Memory) (a c : Nat) :
    (Memory.drop m a).read c = if a = c then Memory.initial c else m.read c := by
  induction m with
  | nil => simp [Memory.drop, Memory.read]
  | cons e m ih =>
    obtain ⟨k, d⟩ := e
    simp only [Memory.drop]
    split
    · subst_vars; simp only [Memory.read, ih]; grind
    · simp only [Memory.read, ih]; grind

/-- A read after a write: the byte written, and every other byte as before. -/
theorem Memory.read_write (m : Memory) (a c : Nat) (b : Byte) :
    (m.write a b).read c = if a = c then b else m.read c := by
  unfold Memory.write
  split
  · subst_vars; rw [Memory.read_drop]; grind
  · exact Memory.read_put ..

/-- A read after a run of consecutive writes. -/
theorem Memory.read_writeBytes (bs : List Byte) (m : Memory) (a c : Nat) :
    (m.writeBytes a bs).read c = if h : a ≤ c ∧ c < a + bs.length then bs[c - a]'(by omega) else m.read c := by
  induction bs generalizing m a with
  | nil => simp only [Memory.writeBytes, List.length_nil]; split <;> first | rfl | omega
  | cons b bs ih =>
    simp only [Memory.writeBytes, ih, Memory.read_write, List.length_cons]
    by_cases h1 : c = a
    · subst h1; simp
    · by_cases h2 : a ≤ c ∧ c < a + (bs.length + 1)
      · obtain ⟨k, rfl⟩ : ∃ k, c = a + 1 + k := ⟨c - (a + 1), by omega⟩
        have : a + 1 + k - a = k + 1 := by omega
        simp [this, show k < bs.length by omega, show a + 1 + k - (a + 1) = k by omega, show a ≤ a + 1 + k by omega,
          show a + 1 + k < a + (bs.length + 1) by omega]
      · have h3 : ¬ (a + 1 ≤ c ∧ c < a + 1 + bs.length) := by omega
        rw [dif_neg h2, dif_neg h3, if_neg (Ne.symm h1)]

/-- The entries of a memory after `put`: the new one, or an old one. -/
theorem Memory.mem_put {m : Memory} {a : Nat} {b : Byte} {c : Host.Cell} (h : c ∈ Memory.put m a b) : c = (a, b) ∨ c ∈ m := by
  induction m with
  | nil => simpa [Memory.put] using h
  | cons e m ih =>
    obtain ⟨k, d⟩ := e
    simp only [Memory.put] at h
    split at h
    · simpa using h
    · split at h
      · simp only [List.mem_cons] at h ⊢; tauto
      · simp only [List.mem_cons] at h ⊢
        rcases h with h | h
        · tauto
        · rcases ih h with h | h <;> tauto

theorem Memory.drop_sublist (m : Memory) (a : Nat) : (Memory.drop m a).Sublist m := by
  induction m with
  | nil => simp [Memory.drop]
  | cons e m ih =>
    obtain ⟨k, d⟩ := e
    simp only [Memory.drop]
    split
    · exact ih.cons _
    · exact ih.cons_cons _

theorem Memory.put_wf {m : Memory} {a : Nat} {b : Byte} (hm : m.wf) (ha : a < Config.memSize) (hb : b ≠ Memory.initial a) :
    (Memory.put m a b).wf := by
  refine ⟨?_, fun c hc => ?_⟩
  · have hs := hm.1
    clear hm
    induction m with
    | nil => simp [Memory.put]
    | cons e m ih =>
      obtain ⟨k, d⟩ := e
      simp only [List.pairwise_cons] at hs
      simp only [Memory.put]
      split
      · rename_i hlt
        simp only [List.pairwise_cons, List.mem_cons]
        refine ⟨?_, hs.1, hs.2⟩
        rintro c (rfl | hc)
        · exact hlt
        · exact lt_trans hlt (hs.1 c hc)
      · split
        · subst_vars; simp only [List.pairwise_cons]; exact ⟨hs.1, hs.2⟩
        · simp only [List.pairwise_cons]
          refine ⟨fun c hc => ?_, ih hs.2⟩
          rcases Memory.mem_put hc with rfl | hc
          · simp only; omega
          · exact hs.1 c hc
  · rcases Memory.mem_put hc with rfl | hc
    · exact ⟨ha, hb⟩
    · exact hm.2 c hc

theorem Memory.drop_wf {m : Memory} (hm : m.wf) (a : Nat) : (Memory.drop m a).wf :=
  ⟨hm.1.sublist (Memory.drop_sublist m a), fun c hc => hm.2 c ((Memory.drop_sublist m a).subset hc)⟩

/-- A write below 4096 keeps the canonical form. -/
theorem Memory.write_wf {m : Memory} {a : Nat} (b : Byte) (hm : m.wf) (ha : a < Config.memSize) : (m.write a b).wf := by
  unfold Memory.write
  split
  · exact Memory.drop_wf hm a
  · exact Memory.put_wf hm ha ‹_›

/-- A run of consecutive writes below 4096 keeps the canonical form. -/
theorem Memory.writeBytes_wf {m : Memory} {a : Nat} {bs : List Byte} (hm : m.wf) (h : a + bs.length ≤ Config.memSize) :
    (m.writeBytes a bs).wf := by
  induction bs generalizing m a with
  | nil => exact hm
  | cons b bs ih =>
    simp only [List.length_cons] at h
    exact ih (Memory.write_wf b hm (by omega)) (by omega)

/-- In a canonical memory a listed byte is what a read gives. -/
theorem Memory.read_of_mem {m : Memory} (hm : m.wf) {c : Host.Cell} (hc : c ∈ m) : m.read c.1 = c.2 := by
  have hs := hm.1
  clear hm
  induction m with
  | nil => simp at hc
  | cons e m ih =>
    simp only [List.pairwise_cons] at hs
    simp only [List.mem_cons] at hc
    simp only [Memory.read]
    rcases hc with rfl | hc
    · simp
    · rw [if_neg (by have := hs.1 c hc; omega)]; exact ih hc hs.2

/-- An unlisted byte reads as its reset contents. -/
theorem Memory.read_of_not_mem {m : Memory} {a : Nat} (h : ∀ c ∈ m, c.1 ≠ a) : m.read a = Memory.initial a := by
  induction m with
  | nil => rfl
  | cons e m ih =>
    simp only [Memory.read]
    rw [if_neg (h e (by simp))]
    exact ih (fun c hc => h c (by simp [hc]))

theorem Memory.nil_wf : Memory.wf [] := by simp [Memory.wf]

theorem State.reset_mem_wf : State.reset.mem.wf := Memory.nil_wf

/-- The bound check passes exactly when no byte of the access is at or above 4096. -/
theorem rangeFault_none {base n : Nat} : rangeFault base n = none ↔ n = 0 ∨ base + n ≤ 4096 := by
  simp only [rangeFault, Config.memSize]; split <;> simp_all

/-- The bound check answers the lowest byte address out of range (R47). -/
theorem rangeFault_some {base n : Nat} {d : Word} :
    rangeFault base n = some d ↔ (n ≠ 0 ∧ 4096 < base + n) ∧ d = BitVec.ofNat 16 (max base 4096) := by
  unfold rangeFault
  split
  · rename_i h; simp only [Config.memSize] at h; constructor
    · simp
    · rintro ⟨h', -⟩; omega
  · rename_i h; simp only [Config.memSize] at h
    simp only [Option.some.injEq, eq_comm (a := d)]; constructor
    · rintro h'; exact ⟨by omega, h'⟩
    · exact fun h' => h'.2

/-- Every byte from 0x50 on is 0 at reset (R54). -/
theorem Memory.initial_high {a : Nat} (h : 80 ≤ a) : Memory.initial a = 0 := by
  have : Config.fontData.length = 80 := by decide
  simp only [Memory.initial, Config.fontBase, Nat.zero_le, if_true, Nat.sub_zero]
  exact List.getD_eq_default _ _ (by omega)

end Sys2Proof.Machine
end

