-- ==== Sys2Proof/Laws/Registers.lean ====
section
/-! SUPPORT. What a read of a register gives after each register write (spec/10_state.md R18, R19). -/

namespace Sys2Proof.Machine

theorem State.reg_eq_get (s : State) (r : Nibble) : s.reg r = s.v[r.toNat]'r.isLt := rfl

/-- A read depends on the register file alone. -/
theorem State.reg_congr {s t : State} (h : s.v = t.v) (r : Nibble) : s.reg r = t.reg r := by
  simp [State.reg, h]

/-- Read after write. -/
theorem State.setReg_reg (s : State) (x r : Nibble) (b : Byte) :
    (s.setReg x b).reg r = if r = x then b else s.reg r := by
  simp only [State.reg, State.setReg, Vector.getElem_set, BitVec.toNat_eq, eq_comm]

@[simp] theorem State.setReg_reg_same (s : State) (x : Nibble) (b : Byte) : (s.setReg x b).reg x = b := by
  simp [State.setReg_reg]

theorem State.setReg_reg_other (s : State) {x r : Nibble} (b : Byte) (h : r ≠ x) : (s.setReg x b).reg r = s.reg r := by
  simp [State.setReg_reg, h]

theorem State.setFlag_reg (s : State) (r : Nibble) (b : Byte) :
    (s.setFlag b).reg r = if r = 0xF then b else s.reg r := State.setReg_reg ..

/-- The flag first, then the result: with x = F the result remains (R14). -/
theorem State.setFlagThenReg_reg (s : State) (x r : Nibble) (f b : Byte) :
    (s.setFlagThenReg x f b).reg r = if r = x then b else if r = 0xF then f else s.reg r := by
  simp [State.setFlagThenReg, State.setReg_reg, State.setFlag_reg]

/-- The number of a register below 16, read back. -/
theorem regNumber_toNat {k : Nat} (h : k < 16) : (regNumber k).toNat = k := by
  simp only [regNumber, BitVec.toNat_ofNat]; omega

/-- The loop of FX65 writes the first n registers and nothing else (R122). -/
theorem State.loadRegsFrom_spec (s : State) (base : Nat) : ∀ n, n ≤ 16 →
    (∀ r, (s.loadRegsFrom base n).reg r = if r.toNat < n then s.mem.read (base + r.toNat) else s.reg r) ∧
    s.loadRegsFrom base n = { s with v := (s.loadRegsFrom base n).v } := by
  intro n
  induction n with
  | zero => intro _; exact ⟨fun r => by simp [State.loadRegsFrom], rfl⟩
  | succ n ih =>
    intro hn
    have step : s.loadRegsFrom base (n + 1) =
        (s.loadRegsFrom base n).setReg (regNumber n) (s.mem.read (base + n)) := by
      simp [State.loadRegsFrom, List.range_succ]
    obtain ⟨hreg, hrest⟩ := ih (by omega)
    refine ⟨fun r => ?_, ?_⟩
    · rw [step, State.setReg_reg, hreg]
      have heq : (r = regNumber n) ↔ r.toNat = n := by
        rw [← BitVec.toNat_inj, regNumber_toNat (by omega)]
      by_cases h : r.toNat = n
      · simp [heq.2 h, regNumber_toNat (show n < 16 by omega)]
      · have : (r.toNat < n + 1) ↔ r.toNat < n := by omega
        simp [mt heq.1 h, this]
    · rw [step, hrest]; rfl

end Sys2Proof.Machine
end

