-- ==== Sys2Proof/Laws/Frames.lean ====
section
/-! SUPPORT. Frames: how they compose, and the frame of each shared update. -/

namespace Sys2Proof.Machine

theorem SameBut.refl (ps : List Part) (s : State) : SameBut ps s s := by
  intro p _; cases p <;> simp [Part.Same]

theorem SameBut.trans {ps : List Part} {s t u : State} (h : SameBut ps s t) (h' : SameBut ps t u) : SameBut ps s u := by
  intro p hp
  have a := h p hp
  have b := h' p hp
  cases p <;> simp only [Part.Same] at * <;>
    first | exact b.trans a | exact ⟨b.1.trans a.1, b.2.trans a.2⟩ | (intros; rw [b, a])

/-- A frame with fewer parts named is stronger. -/
theorem SameBut.mono {ps qs : List Part} (h : ∀ p ∈ ps, p ∈ qs) {s t : State} (hs : SameBut ps s t) : SameBut qs s t :=
  fun p hp => hs p (fun hm => hp (h p hm))

/-- Only the register file and PC differ. -/
theorem sameBut_regs_pc (s : State) (v : Vector Byte 16) (w : Word) : SameBut [.regs, .pc] s { s with v := v, pc := w } := by
  intro p hp
  cases p <;> simp at hp <;> simp [Part.Same, State.keyPressed]

/-- The frame of an instruction whose one destination is V[x]. -/
theorem frame_setReg (s : State) (x : Nibble) (b : Byte) :
    RegsSameBut [x] s (s.advance.setReg x b) ∧ SameBut [.regs, .pc] s (s.advance.setReg x b) ∧
    (s.advance.setReg x b).pc = s.pc + 2 :=
  ⟨fun r hr => by simp at hr; simp [State.setReg_reg, hr], sameBut_regs_pc s _ _, rfl⟩

/-- The frame of an instruction that writes VF as a flag and then V[x]. -/
theorem frame_setFlagThenReg (s : State) (x : Nibble) (f b : Byte) :
    RegsSameBut [x, 0xF] s (s.advance.setFlagThenReg x f b) ∧ SameBut [.regs, .pc] s (s.advance.setFlagThenReg x f b) ∧
    (s.advance.setFlagThenReg x f b).pc = s.pc + 2 :=
  ⟨fun r hr => by simp at hr; simp [State.setFlagThenReg_reg, hr], sameBut_regs_pc s _ _, rfl⟩

/-- The frame of a conditional skip. -/
theorem frame_skipIf (s : State) (c : Bool) : SameBut [.pc] s (s.advance.skipIf c) := by
  intro p hp; cases p <;> simp at hp <;> simp [Part.Same]

/-- The frame of an instruction that writes memory. -/
theorem frame_mem (s : State) (m : Memory) : SameBut [.memory, .pc] s { s.advance with mem := m } := by
  intro p hp
  cases p <;> simp at hp <;> simp [Part.Same]
  · exact fun _ => rfl
  · exact fun _ => rfl

/-- A run of writes changes no byte outside it. -/
theorem outside_writeBytes (s : State) (a : Nat) (bs : List Byte) :
    BytesSameOutside a bs.length s { s.advance with mem := s.mem.writeBytes a bs } := by
  intro c hc; simp [Memory.read_writeBytes, hc]

/-- The fault of an execute phase depends on the registers, I and SP alone. -/
theorem executeFault_congr {s t : State} (i : Instr) (hv : t.v = s.v) (hi : t.i = s.i) (hsp : t.sp = s.sp) :
    executeFault i t = executeFault i s := by
  have hr : ∀ x, t.reg x = s.reg x := State.reg_congr hv
  cases i <;> simp only [executeFault, hr, hi, hsp]

/-- What a fitting record says depends on the registers, I, SP, PC and memory alone. -/
theorem FaultRecord.Fits.congr {f : FaultRecord} {s t : State} (h : f.Fits s) (hv : t.v = s.v) (hi : t.i = s.i) (hsp : t.sp = s.sp)
    (hpc : t.pc = s.pc) (hmem : t.mem = s.mem) : f.Fits t := by
  have hw : t.fetchWord = s.fetchWord := by simp only [State.fetchWord, hpc, hmem]
  simpa only [FaultRecord.Fits, FaultRecord.FromExecute, hw, hsp, hpc, executeFault_congr _ hv hi hsp] using h

end Sys2Proof.Machine
end

