-- ==== Sys2Proof/Laws/Host.lean ====
section
/-! SUPPORT. The host's operations: the timers, the keypad, and how runs of operations and of instructions are taken apart. -/

namespace Sys2Proof.Machine

/-- One decrement, clamped at 0 (R41). -/
theorem timerDown_toNat (t : Byte) : (timerDown t).toNat = t.toNat - 1 := by
  unfold timerDown
  split
  · simp_all
  · have := t.isLt
    have : t.toNat ≠ 0 := fun h => by simp_all [← BitVec.toNat_inj]
    rw [BitVec.toNat_sub]; simp; omega

/-- A key event writes its own key and no other (R42). -/
theorem State.setKey_keyPressed (s : State) (k : Nibble) (b : Bool) (j : Nibble) :
    (s.setKey k b).keyPressed j = if j = k then b else s.keyPressed j := by
  have h : (s.setKey k b).key = s.key.set k.toNat b k.isLt := by
    simp only [State.setKey, State.releaseWait]
    split
    · split <;> rfl
    · rfl
    · rfl
  simp only [State.keyPressed, h, Vector.getElem_set, ← BitVec.toNat_inj, eq_comm]

/-- The two outcomes of a key event: a release of the key wait of V[x], or the key alone (R42, R116). -/
theorem State.setKey_cases (s : State) (k : Nibble) (b : Bool) :
    (∃ x, s.run = .awaitingKey x ∧ s.keyPressed k = false ∧ b = true ∧
      s.setKey k b = { ({ s with key := s.key.set k.toNat true k.isLt }.setReg x (zext8 k)) with run := .running }) ∨
    ((∀ x, s.run = .awaitingKey x → s.keyPressed k = true ∨ b = false) ∧
      s.setKey k b = { s with key := s.key.set k.toNat b k.isLt }) := by
  simp only [State.setKey, State.releaseWait]
  split
  · rename_i x hx
    cases hk : s.keyPressed k <;> cases b <;> simp
    exact Or.inl ⟨x, hx, rfl⟩
  · exact Or.inr ⟨fun x hx => by simp_all, rfl⟩
  · exact Or.inr ⟨fun x hx => by simp_all, rfl⟩

/-- A run that completes, one operation at a time. -/
theorem hostRun_cons_next {e : HostEvent} {es : List HostEvent} {s t : State} :
    hostRun (e :: es) s = .next t ↔ ∃ u, hostEvent e s = .next u ∧ hostRun es u = .next t := by
  simp only [hostRun]
  cases hostEvent e s <;> simp

/-- What relates each state to the next relates the ends of a run; `inv` is a property kept on the way. -/
theorem hostRun_induct {rel : State → State → Prop} {allowed : HostEvent → Prop} {inv : State → Prop}
    (refl : ∀ s, rel s s) (trans : ∀ s t u, rel s t → rel t u → rel s u)
    (one : ∀ e s t, allowed e → inv s → hostEvent e s = .next t → rel s t ∧ inv t) :
    ∀ es s t, (∀ e ∈ es, allowed e) → inv s → hostRun es s = .next t → rel s t ∧ inv t := by
  intro es
  induction es with
  | nil => intro s t _ hi h; cases h; exact ⟨refl s, hi⟩
  | cons e es ih =>
    intro s t ha hi h
    obtain ⟨u, hu, h⟩ := hostRun_cons_next.1 h
    obtain ⟨a, b⟩ := one e s u (ha e (by simp)) hi hu
    obtain ⟨c, d⟩ := ih u t (fun e he => ha e (by simp [he])) b h
    exact ⟨trans _ _ _ a c, d⟩

/-- A run goes on from where its first part ended. -/
theorem hostRun_append {a b : List HostEvent} {s t : State} (h : hostRun a s = .next t) : hostRun (a ++ b) s = hostRun b t := by
  induction a generalizing s with
  | nil => cases h; rfl
  | cons e a ih =>
    obtain ⟨u, hu, h⟩ := hostRun_cons_next.1 h
    simp only [List.cons_append, hostRun, hu]
    exact ih h

/-- Instructions executed one after another go on from where the first part ended. -/
theorem execAll_append {a b : List Instr} {s t : State} (h : execAll a s = .next t) : execAll (a ++ b) s = execAll b t := by
  induction a generalizing s with
  | nil => cases h; rfl
  | cons i a ih =>
    simp only [List.cons_append, execAll] at h ⊢
    cases hx : exec i s with
    | next u => rw [hx] at h; exact ih h
    | fault r => rw [hx] at h; cases h
    | refused r => rw [hx] at h; cases h

end Sys2Proof.Machine
end

