-- ==== Sys2Proof/Laws/Words.lean ====
section
/-! SUPPORT. The fields of a word built from fields (spec/30_encoding.md R68, R69), a word rebuilt from its fields, and fields as digits. -/

namespace Sys2Proof

section
variable (op x y n : Nibble) (nn : Byte) (nnn : Addr12) (i : Nat)

/-! ### A pattern written out as its fields is its format -/

theorem append_formatFA : op ++ nnn = formatFA op nnn := rfl
theorem append_formatFXK : op ++ x ++ nn = formatFXK op x nn := rfl
theorem append_formatFXYN : op ++ x ++ y ++ n = formatFXYN op x y n := rfl

/-! ### The bits of each format -/

theorem formatFA_bit : (formatFA op nnn).getLsbD i = if i < 12 then nnn.getLsbD i else op.getLsbD (i - 12) := by
  rw [formatFA]; exact BitVec.getLsbD_append

theorem formatFXK_bit : (formatFXK op x nn).getLsbD i =
    if i < 8 then nn.getLsbD i else if i - 8 < 4 then x.getLsbD (i - 8) else op.getLsbD (i - 8 - 4) := by
  rw [formatFXK]; exact (BitVec.getLsbD_append (x := op ++ x) (y := nn)).trans (by rw [BitVec.getLsbD_append])

theorem formatFXYN_bit : (formatFXYN op x y n).getLsbD i =
    if i < 4 then n.getLsbD i else if i - 4 < 4 then y.getLsbD (i - 4)
    else if i - 4 - 4 < 4 then x.getLsbD (i - 4 - 4) else op.getLsbD (i - 4 - 4 - 4) := by
  rw [formatFXYN]
  exact (BitVec.getLsbD_append (x := op ++ x ++ y) (y := n)).trans (by
    rw [BitVec.getLsbD_append (x := op ++ x) (y := y), BitVec.getLsbD_append])

/-! ### Fields of formats -/

@[simp] theorem fieldOp_formatFA : fieldOp (formatFA op nnn) = op := by
  ext i hi; simp [fieldOp, formatFA_bit, BitVec.getLsbD_eq_getElem, hi]
@[simp] theorem fieldNNN_formatFA : fieldNNN (formatFA op nnn) = nnn := by
  ext i hi; simp [fieldNNN, formatFA_bit, BitVec.getLsbD_eq_getElem, hi]

@[simp] theorem fieldOp_formatFXK : fieldOp (formatFXK op x nn) = op := by
  ext i hi; simp [fieldOp, formatFXK_bit, BitVec.getLsbD_eq_getElem, hi, show 12 + i - 8 = i + 4 by omega,
    show ¬ 12 + i < 8 by omega]
@[simp] theorem fieldX_formatFXK : fieldX (formatFXK op x nn) = x := by
  ext i hi; simp [fieldX, formatFXK_bit, BitVec.getLsbD_eq_getElem, hi]
@[simp] theorem fieldNN_formatFXK : fieldNN (formatFXK op x nn) = nn := by
  ext i hi; simp [fieldNN, formatFXK_bit, BitVec.getLsbD_eq_getElem, hi]

@[simp] theorem fieldOp_formatFXYN : fieldOp (formatFXYN op x y n) = op := by
  ext i hi
  simp [fieldOp, formatFXYN_bit, BitVec.getLsbD_eq_getElem, hi, show 12 + i - 4 = i + 8 by omega,
    show ¬ 12 + i < 4 by omega, show ¬ i + 8 < 4 by omega]
@[simp] theorem fieldX_formatFXYN : fieldX (formatFXYN op x y n) = x := by
  ext i hi
  simp [fieldX, formatFXYN_bit, BitVec.getLsbD_eq_getElem, hi, show 8 + i - 4 = i + 4 by omega,
    show ¬ 8 + i < 4 by omega]
@[simp] theorem fieldY_formatFXYN : fieldY (formatFXYN op x y n) = y := by
  ext i hi; simp [fieldY, formatFXYN_bit, BitVec.getLsbD_eq_getElem, hi]
@[simp] theorem fieldN_formatFXYN : fieldN (formatFXYN op x y n) = n := by
  ext i hi; simp [fieldN, formatFXYN_bit, BitVec.getLsbD_eq_getElem, hi]

end

/-! ### A word is its fields -/

theorem formatFA_fields (w : Word) : formatFA (fieldOp w) (fieldNNN w) = w := by
  apply BitVec.eq_of_getLsbD_eq
  intro i hi; simp only [formatFA_bit, fieldOp, fieldNNN, BitVec.getLsbD_extractLsb']
  grind

theorem formatFXK_fields (w : Word) : formatFXK (fieldOp w) (fieldX w) (fieldNN w) = w := by
  apply BitVec.eq_of_getLsbD_eq
  intro i hi; simp only [formatFXK_bit, fieldOp, fieldX, fieldNN, BitVec.getLsbD_extractLsb']
  grind

theorem formatFXYN_fields (w : Word) : formatFXYN (fieldOp w) (fieldX w) (fieldY w) (fieldN w) = w := by
  apply BitVec.eq_of_getLsbD_eq
  intro i hi; simp only [formatFXYN_bit, fieldOp, fieldX, fieldY, fieldN, BitVec.getLsbD_extractLsb']
  grind

/-! ### Words digit by digit -/

/-- A four-bit field has one of sixteen values. -/
theorem nibble_cases (q : Nibble) : q = 0 ∨ q = 1 ∨ q = 2 ∨ q = 3 ∨ q = 4 ∨ q = 5 ∨ q = 6 ∨ q = 7 ∨ q = 8 ∨ q = 9 ∨ q = 10 ∨
    q = 11 ∨ q = 12 ∨ q = 13 ∨ q = 14 ∨ q = 15 := by bv_omega

theorem formatFXYN_inj {a b c d a' b' c' d' : Nibble} :
    formatFXYN a b c d = formatFXYN a' b' c' d' ↔ a = a' ∧ b = b' ∧ c = c' ∧ d = d' := by
  constructor
  · intro h
    exact ⟨by simpa using congrArg fieldOp h, by simpa using congrArg fieldX h, by simpa using congrArg fieldY h,
      by simpa using congrArg fieldN h⟩
  · rintro ⟨rfl, rfl, rfl, rfl⟩; rfl

/-- A mask acts on each digit. -/
theorem and_formatFXYN (w : Word) (a b c d : Nibble) :
    w &&& formatFXYN a b c d = formatFXYN (fieldOp w &&& a) (fieldX w &&& b) (fieldY w &&& c) (fieldN w &&& d) := by
  conv => lhs; rw [← formatFXYN_fields w]
  apply BitVec.eq_of_getLsbD_eq
  intro i hi; simp only [formatFXYN_bit, BitVec.getLsbD_and]
  repeat' split
  all_goals rfl

/-- A digit kept whole by a mask. -/
theorem nibble_and_f (q : Nibble) : q &&& 0xF#4 = q := by
  rw [show (0xF#4) = BitVec.allOnes 4 by decide, BitVec.and_allOnes]

/-- An FA word under the mask of its row is its opcode digit (opcode_table.json). -/
theorem formatFA_and (op : Nibble) (nnn : Addr12) : formatFA op nnn &&& 0xF000#16 = formatFXYN op 0 0 0 := by
  rw [show 0xF000#16 = formatFXYN 0xF 0 0 0 by decide, and_formatFXYN, fieldOp_formatFA]
  simp [nibble_and_f]

/-- An FXK word whose row fixes the opcode digit only. -/
theorem formatFXK_and (op x : Nibble) (nn : Byte) : formatFXK op x nn &&& 0xF000#16 = formatFXYN op 0 0 0 := by
  rw [show 0xF000#16 = formatFXYN 0xF 0 0 0 by decide, and_formatFXYN, fieldOp_formatFXK]
  simp [nibble_and_f]

/-- An FXK word whose row fixes NN too. -/
theorem formatFXK_and_nn (op x : Nibble) (nn : Byte) : formatFXK op x nn &&& 0xF0FF#16 = formatFXK op 0 nn := by
  rw [show 0xF0FF#16 = formatFXK 0xF 0 0xFF by decide]
  apply BitVec.eq_of_getLsbD_eq
  intro i hi
  simp only [BitVec.getLsbD_and, formatFXK_bit]
  split
  · rw [show (0xFF : Byte) = BitVec.allOnes 8 by decide, BitVec.getLsbD_allOnes]; simp [*]
  · split
    · simp
    · rw [show (0xF : Nibble) = BitVec.allOnes 4 by decide, BitVec.getLsbD_allOnes, decide_eq_true (by omega), Bool.and_true]

/-- An FXYN word whose row fixes the first and the last digit. -/
theorem formatFXYN_and_n (op x y n : Nibble) : formatFXYN op x y n &&& 0xF00F#16 = formatFXYN op 0 0 n := by
  rw [show 0xF00F#16 = formatFXYN 0xF 0 0 0xF by decide, and_formatFXYN]
  simp [nibble_and_f]

/-- An FXYN word whose row fixes the opcode digit only. -/
theorem formatFXYN_and (op x y n : Nibble) : formatFXYN op x y n &&& 0xF000#16 = formatFXYN op 0 0 0 := by
  rw [show 0xF000#16 = formatFXYN 0xF 0 0 0 by decide, and_formatFXYN]
  simp [nibble_and_f]

/-! ### Fields as digits of the word -/

theorem fieldOp_toNat (w : Word) : (fieldOp w).toNat = w.toNat / 4096 := by
  have := w.isLt
  simp only [fieldOp, BitVec.extractLsb'_toNat, Nat.shiftRight_eq_div_pow]; omega
theorem fieldX_toNat (w : Word) : (fieldX w).toNat = w.toNat / 256 % 16 := by
  simp only [fieldX, BitVec.extractLsb'_toNat, Nat.shiftRight_eq_div_pow]
theorem fieldY_toNat (w : Word) : (fieldY w).toNat = w.toNat / 16 % 16 := by
  simp only [fieldY, BitVec.extractLsb'_toNat, Nat.shiftRight_eq_div_pow]
theorem fieldN_toNat (w : Word) : (fieldN w).toNat = w.toNat % 16 := by
  simp only [fieldN, BitVec.extractLsb'_toNat, Nat.shiftRight_eq_div_pow]; omega
theorem fieldNN_toNat (w : Word) : (fieldNN w).toNat = w.toNat % 256 := by
  simp only [fieldNN, BitVec.extractLsb'_toNat, Nat.shiftRight_eq_div_pow]; omega
theorem fieldNNN_toNat (w : Word) : (fieldNNN w).toNat = w.toNat % 4096 := by
  simp only [fieldNNN, BitVec.extractLsb'_toNat, Nat.shiftRight_eq_div_pow]; omega

/-! ### Bytes of words -/

theorem wordOfBytes_toNat (hi lo : Byte) : (wordOfBytes hi lo).toNat = 256 * hi.toNat + lo.toNat := by
  have h : (wordOfBytes hi lo).toNat = (hi ++ lo).toNat := rfl
  have := lo.isLt
  rw [h, BitVec.toNat_append, ← Nat.shiftLeft_add_eq_or_of_lt this, Nat.shiftLeft_eq]; omega

theorem wordOfBytes_high_low (w : Word) : wordOfBytes (highByte w) (lowByte w) = w := by
  apply BitVec.eq_of_toNat_eq
  rw [wordOfBytes_toNat]
  have := w.isLt
  simp only [highByte, lowByte, BitVec.extractLsb'_toNat, Nat.shiftRight_eq_div_pow]; omega

/-- The bytes of a word decode as the word does. -/
theorem decode_bytes (w : Word) (rest : List Byte) :
    decode (highByte w :: lowByte w :: rest) = (decodeWord w).map (fun i => (i, rest)) := by
  simp [decode, wordOfBytes_high_low]

end Sys2Proof
end

