-- ==== Sys2Proof/Laws/PerInstr.lean ====
section
/-! SUPPORT. Per instruction: its encoding lies in its own row of spec/opcode_table.json. -/

namespace Sys2Proof.Laws.EncodesItsRow

/-- The word of `i` matches the (match, mask) pair of its table row, which is written independently of `encode`. -/
def Statement (i : Instr) : Prop := encode i &&& (tableRow i).2 = (tableRow i).1

theorem cls : Statement (.cls) := (by decide : encode .cls &&& (tableRow .cls).2 = (tableRow .cls).1)
theorem ret : Statement (.ret) := (by decide : encode .ret &&& (tableRow .ret).2 = (tableRow .ret).1)
theorem sys (nnn : Addr12) : Statement (.sys nnn) := (formatFA_and _ _).trans rfl
theorem jp (nnn : Addr12) : Statement (.jp nnn) := (formatFA_and _ _).trans rfl
theorem call (nnn : Addr12) : Statement (.call nnn) := (formatFA_and _ _).trans rfl
theorem seByte (x : Nibble) (nn : Byte) : Statement (.seByte x nn) := (formatFXK_and _ _ _).trans rfl
theorem sneByte (x : Nibble) (nn : Byte) : Statement (.sneByte x nn) := (formatFXK_and _ _ _).trans rfl
theorem seReg (x y : Nibble) : Statement (.seReg x y) := (formatFXYN_and_n _ _ _ _).trans rfl
theorem ldByte (x : Nibble) (nn : Byte) : Statement (.ldByte x nn) := (formatFXK_and _ _ _).trans rfl
theorem addByte (x : Nibble) (nn : Byte) : Statement (.addByte x nn) := (formatFXK_and _ _ _).trans rfl
theorem ldReg (x y : Nibble) : Statement (.ldReg x y) := (formatFXYN_and_n _ _ _ _).trans rfl
theorem orReg (x y : Nibble) : Statement (.orReg x y) := (formatFXYN_and_n _ _ _ _).trans rfl
theorem andReg (x y : Nibble) : Statement (.andReg x y) := (formatFXYN_and_n _ _ _ _).trans rfl
theorem xorReg (x y : Nibble) : Statement (.xorReg x y) := (formatFXYN_and_n _ _ _ _).trans rfl
theorem addReg (x y : Nibble) : Statement (.addReg x y) := (formatFXYN_and_n _ _ _ _).trans rfl
theorem subReg (x y : Nibble) : Statement (.subReg x y) := (formatFXYN_and_n _ _ _ _).trans rfl
theorem shr (x y : Nibble) : Statement (.shr x y) := (formatFXYN_and_n _ _ _ _).trans rfl
theorem subnReg (x y : Nibble) : Statement (.subnReg x y) := (formatFXYN_and_n _ _ _ _).trans rfl
theorem shl (x y : Nibble) : Statement (.shl x y) := (formatFXYN_and_n _ _ _ _).trans rfl
theorem sneReg (x y : Nibble) : Statement (.sneReg x y) := (formatFXYN_and_n _ _ _ _).trans rfl
theorem ldI (nnn : Addr12) : Statement (.ldI nnn) := (formatFA_and _ _).trans rfl
theorem jpV0 (nnn : Addr12) : Statement (.jpV0 nnn) := (formatFA_and _ _).trans rfl
theorem rnd (x : Nibble) (nn : Byte) : Statement (.rnd x nn) := (formatFXK_and _ _ _).trans rfl
theorem drw (x y n : Nibble) : Statement (.drw x y n) := (formatFXYN_and _ _ _ _).trans rfl
theorem skp (x : Nibble) : Statement (.skp x) := (formatFXK_and_nn _ _ _).trans rfl
theorem sknp (x : Nibble) : Statement (.sknp x) := (formatFXK_and_nn _ _ _).trans rfl
theorem ldVxDt (x : Nibble) : Statement (.ldVxDt x) := (formatFXK_and_nn _ _ _).trans rfl
theorem ldVxK (x : Nibble) : Statement (.ldVxK x) := (formatFXK_and_nn _ _ _).trans rfl
theorem ldDtVx (x : Nibble) : Statement (.ldDtVx x) := (formatFXK_and_nn _ _ _).trans rfl
theorem ldStVx (x : Nibble) : Statement (.ldStVx x) := (formatFXK_and_nn _ _ _).trans rfl
theorem addIVx (x : Nibble) : Statement (.addIVx x) := (formatFXK_and_nn _ _ _).trans rfl
theorem ldFVx (x : Nibble) : Statement (.ldFVx x) := (formatFXK_and_nn _ _ _).trans rfl
theorem ldBVx (x : Nibble) : Statement (.ldBVx x) := (formatFXK_and_nn _ _ _).trans rfl
theorem storeRegs (x : Nibble) : Statement (.storeRegs x) := (formatFXK_and_nn _ _ _).trans rfl
theorem loadRegs (x : Nibble) : Statement (.loadRegs x) := (formatFXK_and_nn _ _ _).trans rfl

end Sys2Proof.Laws.EncodesItsRow
end

