-- ==== Sys2Proof/Laws/Screen.lean ====
section
/-! SUPPORT. The framebuffer: a read after a pixel write, and what the drawing loops of DXYN do to each pixel (spec/41_display.md R94, R96). -/

namespace Sys2Proof.Machine

theorem Framebuffer.pixel_setPixel (fb : Framebuffer) (x x' : Fin 64) (y y' : Fin 32) (b : Bool) :
    (fb.setPixel x y b).pixel x' y' = if x = x' ∧ y = y' then b else fb.pixel x' y' := by
  simp only [Framebuffer.pixel, Framebuffer.setPixel, Vector.get_eq_getElem, Vector.getElem_set, Fin.ext_iff]
  by_cases h : x.val = x'.val
  · simp only [h, if_true, Vector.getElem_set, true_and]
  · simp [h]

@[simp] theorem Framebuffer.pixel_clear (x : Fin 64) (y : Fin 32) : Framebuffer.clear.pixel x y = false := by
  simp [Framebuffer.pixel, Framebuffer.clear, Vector.get_eq_getElem]

/-- A flip changes the one pixel, and notes a collision if it was set. -/
theorem Drawing.flip_pixel (d : Drawing) (x x' : Fin 64) (y y' : Fin 32) :
    (d.flip x y).1.pixel x' y' = if x = x' ∧ y = y' then !d.1.pixel x y else d.1.pixel x' y' :=
  Framebuffer.pixel_setPixel ..

theorem Drawing.flip_collide (d : Drawing) (x : Fin 64) (y : Fin 32) : (d.flip x y).2 = (d.2 || d.1.pixel x y) := rfl

/-! ### The drawing loops as a list of distinct pixels, each flipped once -/

/-- Flip the pixels of a list, in order. -/
def Drawing.flipAll (d : Drawing) (ps : List (Fin 64 × Fin 32)) : Drawing := ps.foldl (fun d p => d.flip p.1 p.2) d

/-- Flipping distinct pixels flips each of them and no other, and notes a collision if one of them was set. -/
theorem Drawing.flipAll_spec (ps : List (Fin 64 × Fin 32)) (hn : ps.Nodup) (d : Drawing) :
    (∀ x y, (d.flipAll ps).1.pixel x y = if (x, y) ∈ ps then !d.1.pixel x y else d.1.pixel x y) ∧
    ((d.flipAll ps).2 = true ↔ d.2 = true ∨ ∃ p ∈ ps, d.1.pixel p.1 p.2 = true) := by
  induction ps generalizing d with
  | nil => simp [Drawing.flipAll]
  | cons p ps ih =>
    obtain ⟨px, py⟩ := p
    simp only [List.nodup_cons] at hn
    obtain ⟨hpix, hcol⟩ := ih hn.2 (d.flip px py)
    rw [show d.flipAll ((px, py) :: ps) = (d.flip px py).flipAll ps from rfl]
    refine ⟨fun x y => ?_, ?_⟩
    · rw [hpix, Drawing.flip_pixel]
      by_cases hx : px = x ∧ py = y
      · obtain ⟨rfl, rfl⟩ := hx; simp [hn.1]
      · simp [hx, show ¬ (x = px ∧ y = py) from fun h => hx ⟨h.1.symm, h.2.symm⟩]
    · rw [hcol, Drawing.flip_collide]
      simp only [Bool.or_eq_true, List.mem_cons, exists_eq_or_imp, or_assoc]
      refine or_congr_right (or_congr_right (exists_congr fun p => and_congr_right fun hp => ?_))
      rw [Drawing.flip_pixel, if_neg]
      rintro ⟨rfl, rfl⟩; exact hn.1 hp

/-- The pixels that one sprite row touches. -/
def rowPixels (b : Byte) (x0 y : Nat) : List (Fin 64 × Fin 32) :=
  ((List.range 8).filter (fun c => spriteBit b c)).map (fun c => (Fin.ofNat 64 (x0 + c), Fin.ofNat 32 y))

/-- The pixels that a sprite touches. -/
def spritePixels (m : Memory) (base x0 y0 n : Nat) : List (Fin 64 × Fin 32) :=
  (List.range n).flatMap (fun r => rowPixels (m.read (base + r)) x0 (y0 + r))

theorem Drawing.row_eq (b : Byte) (x0 y : Nat) (d : Drawing) : d.row b x0 y = d.flipAll (rowPixels b x0 y) := by
  unfold Drawing.row Drawing.flipAll rowPixels
  rw [List.foldl_map, List.foldl_filter]

theorem Drawing.sprite_eq (m : Memory) (base x0 y0 n : Nat) (d : Drawing) :
    d.sprite m base x0 y0 n = d.flipAll (spritePixels m base x0 y0 n) := by
  unfold Drawing.sprite spritePixels
  generalize List.range n = l
  induction l generalizing d with
  | nil => rfl
  | cons r l ih =>
    simp only [List.foldl_cons, List.flatMap_cons, Drawing.flipAll, List.foldl_append]
    rw [ih, Drawing.row_eq]; rfl

theorem mem_spritePixels {m : Memory} {base x0 y0 n : Nat} {px : Fin 64} {py : Fin 32} :
    (px, py) ∈ spritePixels m base x0 y0 n ↔
      ∃ r c, r < n ∧ c < 8 ∧ (m.read (base + r)).getLsbD (7 - c) = true ∧ px.val = (x0 + c) % 64 ∧ py.val = (y0 + r) % 32 := by
  simp only [spritePixels, rowPixels, List.mem_flatMap, List.mem_map, List.mem_filter, List.mem_range, spriteBit, Prod.mk.injEq,
    Fin.ext_iff, Fin.ofNat]
  constructor
  · rintro ⟨r, hr, c, ⟨hc, hb⟩, h1, h2⟩; exact ⟨r, c, hr, hc, hb, h1.symm, h2.symm⟩
  · rintro ⟨r, c, hr, hc, hb, h1, h2⟩; exact ⟨r, hr, c, ⟨hc, hb⟩, h1.symm, h2.symm⟩

/-- A sprite of at most 15 rows wraps onto no pixel twice. -/
theorem nodup_spritePixels (m : Memory) (base x0 y0 n : Nat) (hn : n ≤ 15) : (spritePixels m base x0 y0 n).Nodup := by
  rw [spritePixels, List.nodup_flatMap]
  constructor
  · intro r _
    refine List.Nodup.map_on ?_ (List.nodup_range.filter _)
    intro a ha b hb h
    simp only [List.mem_filter, List.mem_range] at ha hb
    simp only [Prod.mk.injEq, Fin.ext_iff, Fin.ofNat, and_true] at h
    omega
  · refine List.Pairwise.imp_of_mem ?_ (List.nodup_range (n := n))
    intro a b ha hb hab
    simp only [List.mem_range] at ha hb
    rw [Function.onFun, List.disjoint_left]
    rintro ⟨px, py⟩ h1 h2
    simp only [rowPixels, List.mem_map, Prod.mk.injEq, Fin.ext_iff, Fin.ofNat] at h1 h2
    obtain ⟨_, _, _, h1⟩ := h1
    obtain ⟨_, _, _, h2⟩ := h2
    omega

end Sys2Proof.Machine
end

