-- ==== Sys2Proof/Laws/Stack.lean ====
section
/-! SUPPORT. The call stack: everything a push and a pop can do (spec/10_state.md R25 to R27). -/

namespace Sys2Proof.Machine

theorem State.push_none {s : State} {w : Word} : s.push w = none ↔ s.sp.val = 16 := by
  have := s.sp.isLt
  simp only [State.push]; split <;> simp <;> omega

/-- A push that fits writes the entry at SP and counts it. -/
theorem State.push_some {s t : State} {w : Word} (h : s.push w = some t) :
    s.sp.val < 16 ∧ t.sp.val = s.sp.val + 1 ∧
    (∀ k : Fin 16, t.stack.get k = if k.val = s.sp.val then w else s.stack.get k) ∧
    t = { s with stack := t.stack, sp := t.sp } := by
  simp only [State.push] at h
  split at h
  · rename_i hlt
    obtain rfl := Option.some.inj h
    refine ⟨hlt, rfl, fun k => ?_, rfl⟩
    simp only [Vector.get_eq_getElem, Vector.getElem_set, eq_comm]
  · simp at h

theorem State.pop_none {s : State} : s.pop = none ↔ s.sp.val = 0 := by
  simp only [State.pop]; split <;> simp <;> omega

/-- A pop answers the entry below SP, and keeps every entry. -/
theorem State.pop_some {s t : State} {w : Word} (h : s.pop = some (w, t)) :
    0 < s.sp.val ∧ t.sp.val + 1 = s.sp.val ∧ (∀ k : Fin 16, k.val + 1 = s.sp.val → w = s.stack.get k) ∧
    t = { s with sp := t.sp } := by
  simp only [State.pop] at h
  split at h
  · rename_i hpos
    obtain ⟨rfl, rfl⟩ := Prod.mk.inj (Option.some.inj h)
    refine ⟨hpos, by simp only; omega, fun k hk => ?_, rfl⟩
    simp only [Vector.get_eq_getElem, ← hk, Nat.add_sub_cancel]
  · simp at h

end Sys2Proof.Machine
end

