-- ==== Sys2Proof/Laws/Step.lean ====
section
/-! SUPPORT. Fetching, and operands that may be refused: everything each shared operation of a step can do (spec/30_encoding.md R64,
spec/60_exceptions.md R126). -/

namespace Sys2Proof.Machine

theorem pc_odd_iff (w : Word) : w.getLsbD 0 = true ↔ w.toNat % 2 = 1 := by
  simp [BitVec.getLsbD, Nat.testBit_zero]

theorem pc_even_iff (w : Word) : w.getLsbD 0 = false ↔ w.toNat % 2 = 0 := by
  rw [Bool.eq_false_iff, ne_eq, pc_odd_iff]; omega

/-- An odd PC faults before memory is read (R51). -/
theorem State.fetch_odd {s : State} (h : s.pc.toNat % 2 = 1) : s.fetch = .error (s.raise .misalignedFetch none s.pc) := by
  rw [State.fetch, (pc_odd_iff s.pc).2 h, if_pos rfl]

/-- An even PC whose word reaches past the end of memory faults (R48). -/
theorem State.fetch_high {s : State} (h : s.pc.toNat % 2 = 0) (h' : 4096 ≤ s.pc.toNat + 1) :
    s.fetch = .error (s.raise .outOfBounds none (BitVec.ofNat 16 (max s.pc.toNat 4096))) := by
  have h3 : rangeFault s.pc.toNat 2 = some (BitVec.ofNat 16 (max s.pc.toNat 4096)) := rangeFault_some.2 ⟨by omega, rfl⟩
  rw [State.fetch, (pc_even_iff s.pc).2 h, if_neg (by simp), h3]

/-- Otherwise the fetch gives the big-endian word at PC (R49). -/
theorem State.fetch_ok {s : State} (h : s.pc.toNat % 2 = 0) (h' : s.pc.toNat + 1 < 4096) : s.fetch = .ok s.fetchWord := by
  have h3 : rangeFault s.pc.toNat 2 = none := rangeFault_none.2 (by omega)
  rw [State.fetch, (pc_even_iff s.pc).2 h, if_neg (by simp), h3]

theorem State.fetchWord_toNat (s : State) :
    s.fetchWord.toNat = 256 * (s.mem.read s.pc.toNat).toNat + (s.mem.read (s.pc.toNat + 1)).toNat := wordOfBytes_toNat ..

/-- A fetch that fails takes a fault of the state it found. -/
theorem State.fetchDecode_error {s t : State} (h : s.fetchDecode = .error t) :
    ∃ kind word detail, t = s.raise kind word detail := by
  unfold State.fetchDecode at h
  split at h
  · rename_i he
    cases h
    unfold State.fetch at he
    split at he
    · cases he; exact ⟨_, _, _, rfl⟩
    · split at he
      · cases he; exact ⟨_, _, _, rfl⟩
      · cases he
  · split at h
    · cases h
    · cases h; exact ⟨_, _, _, rfl⟩

theorem step_running {s : State} (h : s.run = .running) :
    step s = match s.fetchDecode with | .ok i => exec i s | .error t => .next t := by
  unfold step; rw [h]; try rfl

/-- A step of a running machine whose fetch gives an instruction. -/
theorem step_of_ok {s : State} {i : Instr} (h : s.run = .running) (hi : s.fetchDecode = .ok i) : step s = exec i s := by
  rw [step_running h, hi]

/-- A step of a running machine whose fetch takes a fault. -/
theorem step_of_error {s t : State} (h : s.run = .running) (ht : s.fetchDecode = .error t) : step s = .next t := by
  rw [step_running h, ht]

theorem step_awaiting {s : State} {x : Nibble} (h : s.run = .awaitingKey x) : step s = .next s := by
  unfold step; rw [h]

theorem step_halted {s : State} {f : FaultRecord} (h : s.run = .halted f) : step s = .next s := by
  unfold step; rw [h]

/-- A key or digit number exists for exactly the values 0 to 15. -/
theorem digitOf_none {b : Byte} : digitOf b = none ↔ 15 < b.toNat := by simp [digitOf]

theorem digitOf_some {b : Byte} {k : Nibble} : digitOf b = some k ↔ b.toNat = k.toNat := by
  simp only [digitOf]
  split
  · simp only [Option.some.injEq, ← BitVec.toNat_inj, BitVec.toNat_setWidth]; omega
  · have := k.isLt; simp only [reduceCtorEq, false_iff]; omega

end Sys2Proof.Machine
end

