-- ==== Sys2Proof/Tests/Slice0.lean ====
section
/-! SUPPORT. Tests: the expected results are those of spec/95_test_vectors.md (its ids V40.1 .. V70.8 and P1.1 .. P1.6) or are worked out by hand from the
rule named; the words are written out from the tables of spec/30_encoding.md. Then one witness for each set of hypotheses of an obligation. -/

namespace Sys2Proof.Tests

open Sys2Proof.Machine

/-! ### Helpers -/

/-- Power-on with V1 and V2 set. -/
def regs12 (a b : Byte) : State := (State.reset.setReg 1 a).setReg 2 b

/-- One step of a state whose next instruction is the word `w`, and a check of the next state. -/
def ends (w : Nat) (s : State) (p : State → Bool) : Bool :=
  match step (s.withFetchWord 16 w) with
  | .next t => p t
  | .fault _ => false
  | .refused _ => false

/-- The word at 0x200 faults with this record and changes nothing else that the check names: PC and the registers V0 to V2. -/
def faults (w : Nat) (s : State) (f : FaultRecord) : Bool :=
  ends w s fun t => t.run == .halted f && t.pc == 0x200 && t.reg 0 == s.reg 0 && t.reg 1 == s.reg 1 && t.reg 2 == s.reg 2

/-! ### Well-formedness -/

theorem test_sys_of_cls_ill_formed : wellFormed (.sys 0x0E0) = false := by decide
theorem test_sys_of_ret_ill_formed : wellFormed (.sys 0x0EE) = false := by decide
theorem test_sys_well_formed : wellFormed (.sys 0x0E1) = true ∧ wellFormed (.sys 0x000) = true ∧ wellFormed (.sys 0xFFF) = true := by decide

/-! ### Every constructor from a word written out from its encoding (R72 to R77) -/

theorem test_decode_op0_flow :
    decodeWord 0b0000_0000_1110_0000 = .ok .cls ∧ decodeWord 0b0000_0000_1110_1110 = .ok .ret ∧
    decodeWord 0b0000_0001_0010_0011 = .ok (.sys 0x123) ∧ decodeWord 0b0001_0010_0011_0100 = .ok (.jp 0x234) ∧
    decodeWord 0b0010_0011_0000_0000 = .ok (.call 0x300) ∧ decodeWord 0b1011_1111_1111_1110 = .ok (.jpV0 0xFFE) := by decide
theorem test_decode_skips :
    decodeWord 0b0011_0001_0000_0101 = .ok (.seByte 1 0x05) ∧ decodeWord 0b0100_0001_0000_0101 = .ok (.sneByte 1 0x05) ∧
    decodeWord 0b0101_0001_0010_0000 = .ok (.seReg 1 2) ∧ decodeWord 0b1001_0001_0010_0000 = .ok (.sneReg 1 2) ∧
    decodeWord 0b1110_0001_1001_1110 = .ok (.skp 1) ∧ decodeWord 0b1110_0001_1010_0001 = .ok (.sknp 1) := by decide
theorem test_decode_immediate :
    decodeWord 0b0110_1010_0111_1011 = .ok (.ldByte 0xA 0x7B) ∧ decodeWord 0b0111_0001_1111_1111 = .ok (.addByte 1 0xFF) ∧
    decodeWord 0b1100_0011_0000_1111 = .ok (.rnd 3 0x0F) ∧ decodeWord 0b1010_0011_0000_0001 = .ok (.ldI 0x301) := by decide
theorem test_decode_alu :
    decodeWord 0b1000_0001_0010_0000 = .ok (.ldReg 1 2) ∧ decodeWord 0b1000_0001_0010_0001 = .ok (.orReg 1 2) ∧
    decodeWord 0b1000_0001_0010_0010 = .ok (.andReg 1 2) ∧ decodeWord 0b1000_0001_0010_0011 = .ok (.xorReg 1 2) ∧
    decodeWord 0b1000_0001_0010_0100 = .ok (.addReg 1 2) ∧ decodeWord 0b1000_0001_0010_0101 = .ok (.subReg 1 2) ∧
    decodeWord 0b1000_0001_0010_0110 = .ok (.shr 1 2) ∧ decodeWord 0b1000_0001_0010_0111 = .ok (.subnReg 1 2) ∧
    decodeWord 0b1000_0001_0010_1110 = .ok (.shl 1 2) := by decide
theorem test_decode_display : decodeWord 0b1101_0001_0010_0101 = .ok (.drw 1 2 5) := by decide
theorem test_decode_opF :
    decodeWord 0b1111_0011_0000_0111 = .ok (.ldVxDt 3) ∧ decodeWord 0b1111_0011_0000_1010 = .ok (.ldVxK 3) ∧
    decodeWord 0b1111_0011_0001_0101 = .ok (.ldDtVx 3) ∧ decodeWord 0b1111_0011_0001_1000 = .ok (.ldStVx 3) ∧
    decodeWord 0b1111_0011_0001_1110 = .ok (.addIVx 3) ∧ decodeWord 0b1111_0011_0010_1001 = .ok (.ldFVx 3) ∧
    decodeWord 0b1111_0011_0011_0011 = .ok (.ldBVx 3) ∧ decodeWord 0b1111_0011_0101_0101 = .ok (.storeRegs 3) ∧
    decodeWord 0b1111_0011_0110_0101 = .ok (.loadRegs 3) := by decide
/-- V30.1 to V30.5. -/
theorem test_decode_illegal :
    decodeWord 0x5121 = .error (.illegalOp5 0x5121) ∧ decodeWord 0x8128 = .error (.illegalOp8 0x8128) ∧
    decodeWord 0x9121 = .error (.illegalOp9 0x9121) ∧ decodeWord 0xE0FF = .error (.illegalOpE 0xE0FF) ∧
    decodeWord 0xF000 = .error (.illegalOpF 0xF000) ∧ decode [0x12] = .error .truncated := by decide
/-- The table's own numbering: bit 0 is the least significant bit of the word. -/
theorem test_decode_table_word : decodeTableWord 16 0xD125 = some (.drw 1 2 5) ∧ decodeTableWord 16 0x8128 = none := by decide

/-! ### Register and ALU instructions -/

/-- V40.1, V40.2. -/
theorem test_ldByte : ends 0x6A7B .reset (fun t => t.reg 0xA == 0x7B && t.pc == 0x202) = true := by decide
theorem test_ldByte_vf : ends 0x6F00 (State.reset.setReg 0xF 1) (fun t => t.reg 0xF == 0) = true := by decide
/-- V40.3, V40.4. -/
theorem test_addByte : ends 0x71FF (regs12 0x05 0) (fun t => t.reg 1 == 0x04 && t.reg 0xF == 0) = true := by decide
theorem test_addByte_no_carry : ends 0x7102 (regs12 0xFF 0) (fun t => t.reg 1 == 0x01 && t.reg 0xF == 0) = true := by decide
/-- V40.5. -/
theorem test_ldReg : ends 0x8120 (regs12 0 0x33) (fun t => t.reg 1 == 0x33) = true := by decide
/-- V40.6. -/
theorem test_or : ends 0x8121 ((regs12 0x0F 0xF0).setReg 0xF 5) (fun t => t.reg 1 == 0xFF && t.reg 0xF == 5) = true := by decide
/-- V40.7. -/
theorem test_and : ends 0x8122 (regs12 0x3C 0x0F) (fun t => t.reg 1 == 0x0C) = true := by decide
/-- V40.8, V40.9. -/
theorem test_xor : ends 0x8123 (regs12 0xFF 0x0F) (fun t => t.reg 1 == 0xF0) = true := by decide
theorem test_xor_self : ends 0x8113 (regs12 0xAA 0) (fun t => t.reg 1 == 0x00) = true := by decide
/-- P1.1, V40.11. -/
theorem test_add : ends 0x8124 (regs12 0xFF 0x01) (fun t => t.reg 1 == 0x00 && t.reg 0xF == 0x01) = true := by decide
theorem test_add_vf : ends 0x8F14 ((regs12 0x01 0).setReg 0xF 0xFF) (fun t => t.reg 0xF == 0x00) = true := by decide
/-- P1.2, V40.13. -/
theorem test_sub_equal : ends 0x8125 (regs12 0x05 0x05) (fun t => t.reg 1 == 0x00 && t.reg 0xF == 0x01) = true := by decide
theorem test_sub_vf : ends 0x8F15 ((regs12 0x05 0).setReg 0xF 0x03) (fun t => t.reg 0xF == 0xFE) = true := by decide
/-- V40.16, V40.17. -/
theorem test_shr_ignores_y : ends 0x8126 (regs12 0x04 0xFF) (fun t => t.reg 1 == 0x02 && t.reg 0xF == 0x00) = true := by decide
theorem test_shr_vf : ends 0x8F06 (State.reset.setReg 0xF 0x05) (fun t => t.reg 0xF == 0x02) = true := by decide
/-- P1.2, V40.18. -/
theorem test_subn : ends 0x8127 (regs12 0x03 0x05) (fun t => t.reg 1 == 0x02 && t.reg 0xF == 0x01) = true := by decide
theorem test_subn_vf : ends 0x8F17 ((regs12 0x05 0).setReg 0xF 0x03) (fun t => t.reg 0xF == 0x02) = true := by decide
/-- V40.19, V40.20. -/
theorem test_shl : ends 0x810E (regs12 0x81 0) (fun t => t.reg 1 == 0x02 && t.reg 0xF == 0x01) = true := by decide
theorem test_shl_no_carry : ends 0x810E (regs12 0x7F 0) (fun t => t.reg 1 == 0xFE && t.reg 0xF == 0x00) = true := by decide
/-- CXNN: PC goes on and the draw is taken, whatever the byte (R93); the byte itself is free. -/
theorem test_rnd : ends 0xC300 .reset (fun t => t.pc == 0x202 && t.draws == 1 && t.reg 2 == 0) = true := by decide

/-! ### Display -/

/-- V41.1. -/
theorem test_cls :
    ends 0x00E0 { State.reset with fb := State.reset.fb.setPixel 63 31 true } (fun t => t.fb.pixel 63 31 == false && t.pc == 0x202) = true := by
  decide
/-- V41.3: four of the 14 pixels, with both wraps, and one that stays 0. -/
theorem test_drw_wraps :
    ends 0xD125 { regs12 0x3E 0x1E with i := 0x019 } (fun t => t.fb.pixel 62 30 && t.fb.pixel 1 30 && t.fb.pixel 62 31 && t.fb.pixel 1 1 &&
      !t.fb.pixel 0 1 && t.reg 0xF == 0) = true := by decide
/-- R96, R97: drawing onto a set pixel clears it and notes the collision. -/
theorem test_drw_collides :
    ends 0xD121 { State.reset with fb := State.reset.fb.setPixel 3 0 true } (fun t => !t.fb.pixel 3 0 && t.fb.pixel 2 0 && t.reg 0xF == 1) = true := by
  decide

/-! ### Control flow -/

/-- V42.1. -/
theorem test_jp : ends 0x1300 .reset (fun t => t.pc == 0x300) = true := by decide
/-- V42.5, V42.6. -/
theorem test_jpV0_wide : ends 0xBFFF (State.reset.setReg 0 0xFF) (fun t => t.pc == 0x10FE) = true := by decide
theorem test_jpV0_x_is_address : ends 0xB500 ((State.reset.setReg 0 1).setReg 5 0x40) (fun t => t.pc == 0x501) = true := by decide
/-- V42.7. -/
theorem test_call :
    ends 0x2210 { State.reset with pc := 0x204 } (fun t => t.pc == 0x210 && t.sp == 1 && t.stack.get 0 == 0x206) = true := by decide
/-- V42.10. -/
theorem test_call_overflow : faults 0x2400 { State.reset with sp := 16 } ⟨.stackOverflow, 0x200, some 0x2400, 16⟩ = true := by decide
/-- V42.9. -/
theorem test_ret :
    ends 0x00EE { State.reset with pc := 0x212, sp := 1, stack := State.reset.stack.set 0 0x206 } (fun t => t.pc == 0x206 && t.sp == 0) = true := by
  decide
/-- V42.8. -/
theorem test_ret_underflow : faults 0x00EE .reset ⟨.stackUnderflow, 0x200, some 0x00EE, 0⟩ = true := by decide
/-- V42.11, V42.12. -/
theorem test_seByte : ends 0x3100 .reset (fun t => t.pc == 0x204) = true ∧ ends 0x3100 (regs12 1 0) (fun t => t.pc == 0x202) = true := by decide
/-- V42.13, V42.14. -/
theorem test_sneByte :
    ends 0x4105 (regs12 5 0) (fun t => t.pc == 0x202) = true ∧ ends 0x4105 (regs12 6 0) (fun t => t.pc == 0x204) = true := by decide
/-- V42.15; the other way from R106. -/
theorem test_seReg :
    ends 0x5120 (regs12 0x10 0x10) (fun t => t.pc == 0x204) = true ∧ ends 0x5120 (regs12 0x10 0x11) (fun t => t.pc == 0x202) = true := by decide
/-- V42.17, V42.18. -/
theorem test_sneReg :
    ends 0x9120 (regs12 0x10 0x11) (fun t => t.pc == 0x204) = true ∧ ends 0x9110 .reset (fun t => t.pc == 0x202) = true := by decide
/-- V42.21, V42.22. -/
theorem test_sys : ends 0x0123 .reset (fun t => t.pc == 0x202 && t.run == .running) = true := by decide
theorem test_sys_fault_policy :
    (match sysUnder .fault 0x123 .reset with
      | .next t => t.run == .halted ⟨.illegalInstruction, 0x200, some 0x0123, 0x0123⟩ && t.pc == 0x200
      | .fault _ => false
      | .refused _ => false) = true := by decide

/-! ### Timers and keys -/

/-- V43.1. -/
theorem test_ldVxDt : ends 0xF307 { State.reset with dt := 0x2A } (fun t => t.reg 3 == 0x2A && t.dt == 0x2A) = true := by decide
/-- V43.2. -/
theorem test_ldDtVx : ends 0xF315 (State.reset.setReg 3 0x3C) (fun t => t.dt == 0x3C && t.st == 0) = true := by decide
/-- V43.3. -/
theorem test_ldStVx : ends 0xF318 (State.reset.setReg 3 0x05) (fun t => t.st == 0x05 && t.soundOn && t.dt == 0) = true := by decide
/-- V43.6, V43.7, V43.9. -/
theorem test_skp :
    ends 0xE19E ((regs12 7 0).setKey 7 true) (fun t => t.pc == 0x204) = true ∧ ends 0xE19E (regs12 7 0) (fun t => t.pc == 0x202) = true := by decide
theorem test_skp_no_key : faults 0xE19E (regs12 0x10 0) ⟨.operandRange, 0x200, some 0xE19E, 0x10⟩ = true := by decide
/-- V43.8, V43.10. -/
theorem test_sknp :
    ends 0xE1A1 ((regs12 7 0).setKey 7 true) (fun t => t.pc == 0x202) = true ∧ ends 0xE1A1 (regs12 7 0) (fun t => t.pc == 0x204) = true := by decide
theorem test_sknp_no_key : faults 0xE1A1 (regs12 0xFF 0) ⟨.operandRange, 0x200, some 0xE1A1, 0xFF⟩ = true := by decide
/-- V43.11. -/
theorem test_ldVxK : ends 0xF20A .reset (fun t => t.run == .awaitingKey 2 && t.pc == 0x202 && t.reg 2 == 0) = true := by decide
/-- V43.13, V43.14. -/
theorem test_setKey_releases :
    let s := { State.reset with run := .awaitingKey 2 }.setKey 7 true
    s.reg 2 = 0x07 ∧ s.run = .running ∧ s.pc = 0x200 := by decide
theorem test_setKey_held_key : ({ State.reset with run := .awaitingKey 2, key := State.reset.key.set 3 true }.setKey 3 true).run = .awaitingKey 2 := by
  decide
/-- P1.6, V43.5. -/
theorem test_tick : ({ State.reset with dt := 5 }.tick.dt, { State.reset with dt := 5 }.tick.st) = (4, 0) := by decide

/-! ### Index register and memory -/

/-- V44.1. -/
theorem test_ldI : ends 0xA300 .reset (fun t => t.i == 0x300) = true := by decide
/-- V44.4. -/
theorem test_addIVx : ends 0xF01E { State.reset.setReg 0 1 with i := 0xFFFF } (fun t => t.i == 0 && t.reg 0xF == 0) = true := by decide
/-- V44.5, V44.6, V44.7. -/
theorem test_ldFVx :
    ends 0xF029 (State.reset.setReg 0 0x05) (fun t => t.i == 0x019) = true ∧ ends 0xF029 (State.reset.setReg 0 0x0F) (fun t => t.i == 0x04B) = true := by
  decide
theorem test_ldFVx_no_digit : faults 0xF029 (State.reset.setReg 0 0x10) ⟨.operandRange, 0x200, some 0xF029, 0x10⟩ = true := by decide
/-- V44.9, V44.10. -/
theorem test_ldBVx :
    ends 0xF033 { State.reset.setReg 0 0xFF with i := 0xFFD }
      (fun t => t.mem.read 0xFFD == 2 && t.mem.read 0xFFE == 5 && t.mem.read 0xFFF == 5 && t.i == 0xFFD) = true := by decide
theorem test_ldBVx_range :
    faults 0xF033 { State.reset.setReg 0 0xFF with i := 0xFFE } ⟨.outOfBounds, 0x200, some 0xF033, 0x1000⟩ = true := by decide
/-- V44.12; V44.14. -/
theorem test_storeRegs :
    ends 0xF255 { (regs12 2 3).setReg 0 1 with i := 0x300 }
      (fun t => t.mem.read 0x300 == 1 && t.mem.read 0x301 == 2 && t.mem.read 0x302 == 3 && t.mem.read 0x303 == 0 && t.i == 0x300) = true := by decide
theorem test_storeRegs_range : faults 0xFF55 { State.reset with i := 0xFF1 } ⟨.outOfBounds, 0x200, some 0xFF55, 0x1000⟩ = true := by decide
/-- V70.8; V44.17. -/
theorem test_loadRegs :
    ends 0xF465 .reset (fun t => t.reg 0 == 0xF0 && t.reg 1 == 0x90 && t.reg 4 == 0xF0 && t.reg 5 == 0 && t.i == 0) = true := by decide
theorem test_loadRegs_range : faults 0xF165 { regs12 1 2 with i := 0xFFF } ⟨.outOfBounds, 0x200, some 0xF165, 0x1000⟩ = true := by decide

/-! ### Witnesses: states and operands that meet the hypotheses of the obligations, one for each clause at the edge of its range -/

/-- A power-on state with PC moved. -/
def atPc (pc : Word) : State := { State.reset with pc := pc }

/-- A machine that awaits a key for V2. -/
def awaiting2 : State := { State.reset with run := .awaitingKey 2 }

/-- A machine halted by a fetch from 0x201. -/
def halted201 : State := { State.reset with pc := 0x201, run := .halted ⟨.misalignedFetch, 0x201, none, 0x201⟩ }

/-- Every operation but a `load` and a key press. -/
def quietRun : List HostEvent := [.step, .tick, .setKey 3 false, .readFramebuffer, .step]

/-- A host operation or a run of them ends in a next state. -/
def completes (o : Host.Outcome State Fault Refusal) : Bool :=
  match o with
  | .next _ => true
  | .fault _ => false
  | .refused _ => false

theorem next_of_completes {o : Host.Outcome State Fault Refusal} (h : completes o = true) : ∃ t, o = .next t := by
  cases o with
  | next t => exact ⟨t, rfl⟩
  | fault r => cases h
  | refused r => cases h

theorem test_witness_DecodeOfEncode : wellFormed (.sys 0x0E1) = true ∧ wellFormed (.drw 0xF 0xF 0xF) = true := by decide
theorem test_witness_EncodeOfDecode : decodeWord 0xFFFF = .error (.illegalOpF 0xFFFF) ∧ decodeWord 0xFF65 = .ok (.loadRegs 0xF) := by decide
theorem test_witness_DecodingSelectsOneTableRow :
    decodeWord 0x00E0 = .ok .cls ∧ (0x00E0 : Word) &&& (tableRow (.sys 0)).2 = (tableRow (.sys 0)).1 ∧
    (0x00E0 : Word) &&& (tableRow .cls).2 = (tableRow .cls).1 := by decide
theorem test_witness_StepRunsDecodedInstruction :
    (atPc 0xFFE).run = .running ∧ (atPc 0xFFE).pc.toNat % 2 = 0 ∧ (atPc 0xFFE).pc.toNat + 1 < 4096 ∧
    decode [(atPc 0xFFE).mem.read (atPc 0xFFE).pc.toNat, (atPc 0xFFE).mem.read ((atPc 0xFFE).pc.toNat + 1)] = .ok (.sys 0, []) := by decide
theorem test_witness_StepReportsFirstFault_odd : (atPc 0x1001).run = .running ∧ (atPc 0x1001).pc.toNat % 2 = 1 := by decide
theorem test_witness_StepReportsFirstFault_high :
    (atPc 0x1000).run = .running ∧ ¬ (atPc 0x1000).pc.toNat % 2 = 1 ∧ 4096 ≤ (atPc 0x1000).pc.toNat + 1 := by decide
theorem test_witness_StepReportsFirstFault_word :
    ¬ (atPc 0xFFE).pc.toNat % 2 = 1 ∧ ¬ 4096 ≤ (atPc 0xFFE).pc.toNat + 1 ∧
    (0x0000 : Word).toNat = 256 * ((atPc 0xFFE).mem.read (atPc 0xFFE).pc.toNat).toNat + ((atPc 0xFFE).mem.read ((atPc 0xFFE).pc.toNat + 1)).toNat := by
  decide
theorem test_witness_StepResults : State.reset.run = .running ∧ awaiting2.run = .awaitingKey 2 ∧
    halted201.run = .halted ⟨.misalignedFetch, 0x201, none, 0x201⟩ := by decide
/-- A fault of the execute phase: the precise record of V42.8. -/
theorem test_witness_FaultsArePrecise :
    ∃ t f, (State.reset.withFetchWord 16 0x00EE).run = .running ∧ step (State.reset.withFetchWord 16 0x00EE) = .next t ∧ t.run = .halted f :=
  ⟨_, _, rfl, rfl, rfl⟩
theorem test_witness_ExecuteFaultsAreTheTable :
    executeFault (.drw 1 2 1) { State.reset with i := 0xFFF } = none ∧
    executeFault (.drw 1 2 2) { State.reset with i := 0xFFF } = some (.outOfBounds, 0x1000) ∧
    executeFault (.drw 1 2 0) { State.reset with i := 0xFFFF } = none ∧
    executeFault (.storeRegs 0) { State.reset with i := 0x1000 } = some (.outOfBounds, 0x1000) ∧
    executeFault (.skp 1) (regs12 0x0F 0) = none ∧ executeFault (.skp 1) (regs12 0x10 0) = some (.operandRange, 0x10) ∧
    executeFault (.call 0) { State.reset with sp := 15 } = none ∧ executeFault .ret { State.reset with sp := 1 } = none := by decide
theorem test_witness_PlacedWordRunsNext : decodeWord (BitVec.ofNat 16 0xD125) = .ok (.drw 1 2 5) ∧ 0xD125 < 65536 := by decide
theorem test_witness_FlagWritersAreThese :
    completes (exec (.ldByte 0xE 1) State.reset) = true ∧ writesFlag (.ldByte 0xE 1) = false ∧ writesReg 0xF (.ldByte 0xE 1) = false := by decide
theorem test_witness_WritersOfEachPartAreThese :
    completes (exec (.loadRegs 0xE) State.reset) = true ∧ writesReg 0xF (.loadRegs 0xE) = false ∧ writesReg 0xE (.loadRegs 0xE) = true ∧
    transfersControl (.loadRegs 0xE) = false := by decide
theorem test_witness_AddWithCarry : (1 : Nibble) ≠ 0xF ∧ 255 < ((regs12 0xFF 0x01).reg 1).toNat + ((regs12 0xFF 0x01).reg 2).toNat := by decide
theorem test_witness_SubtractBothWays_ShiftByOne : (0xE : Nibble) ≠ 0xF ∧ (0x0 : Nibble) ≠ 0xF := by decide
theorem test_witness_DrawPixelByPixel :
    (0 : Nibble).toNat = 0 ∧ ({ State.reset with i := 0xFFF } : State).i.toNat + (1 : Nibble).toNat ≤ 4096 ∧
    ((2 : Nibble).toNat ≠ 0 ∧ 4096 < ({ State.reset with i := 0xFFF } : State).i.toNat + (2 : Nibble).toNat) := by decide
/-- The leftmost bit of glyph 0 covers the top left pixel, and nothing covers the pixel under its second. -/
theorem test_witness_DrawPixelByPixel_covers : SpriteCovers State.reset 1 2 5 0 0 ∧ ¬ SpriteCovers State.reset 1 2 5 1 1 := by
  refine ⟨⟨0, 0, by decide, by decide, by decide, by decide, by decide⟩, ?_⟩
  rintro ⟨r, c, hr, hc, hb, hx, hy⟩
  have hr : r < 5 := hr
  have h1 : c = 1 := by have : 1 = (0 + c) % 64 := hx; omega
  have h2 : r = 1 := by have : 1 = (0 + r) % 32 := hy; omega
  subst h1 h2
  exact absurd hb (by decide)
theorem test_witness_DoubleDrawRestores :
    ({ State.reset with i := 0xFFF } : State).i.toNat + (1 : Nibble).toNat ≤ 4096 ∧
    ∃ t, exec (.drw 1 2 1) { State.reset with i := 0xFFF } = .next t ∧ t.fb = t.fb ∧ t.reg 1 = State.reset.reg 1 ∧ t.reg 2 = State.reset.reg 2 ∧
      t.i = t.i := ⟨by decide, _, rfl, rfl, by decide, by decide, rfl⟩
theorem test_witness_BadTargetsFaultAtNextFetch :
    State.reset.run = .running ∧ (0x201 : Addr12).toNat % 2 = 1 ∧ ({ State.reset with sp := 15 } : State).sp.val < 16 ∧
    ((0x500 : Addr12).toNat + ((State.reset.setReg 0 1).reg 0).toNat) % 2 = 1 ∧
    ((0xFFF : Addr12).toNat + ((State.reset.setReg 0 1).reg 0).toNat) % 2 = 0 ∧
    0x1000 ≤ (0xFFF : Addr12).toNat + ((State.reset.setReg 0 1).reg 0).toNat := by decide
theorem test_witness_CallPushesReturnAddress :
    ({ State.reset with sp := 15 } : State).sp.val < 16 ∧ ({ State.reset with sp := 16 } : State).sp.val = 16 := by decide
theorem test_witness_ReturnPopsAddress :
    0 < ({ State.reset with sp := 1 } : State).sp.val ∧ (0 : Fin 16).val + 1 = ({ State.reset with sp := 1 } : State).sp.val ∧
    State.reset.sp.val = 0 := by decide
theorem test_witness_CallsThenReturnsComeBack :
    List.replicate 16 (0x300 : Addr12) ≠ [] ∧ State.reset.sp.val + (List.replicate 16 (0x300 : Addr12)).length ≤ 16 := by decide
theorem test_witness_SysUnderBothPolicies : (0x0E1 : Addr12) ≠ 0x0E0 ∧ (0x0E1 : Addr12) ≠ 0x0EE := by decide
theorem test_witness_KeySkips :
    ((regs12 0x0F 0).reg 1).toNat = (0xF : Nibble).toNat ∧ 15 < ((regs12 0x10 0).reg 1).toNat := by decide
theorem test_witness_KeyWaitBegins :
    State.reset.run = .running ∧ ({ State.reset with key := State.reset.key.set 3 true } : State).keyPressed 3 = true ∧
    State.reset.keyPressed 3 = false := by decide
theorem test_witness_KeyWaitLasts : NoPress quietRun ∧ awaiting2.run = .awaitingKey 2 ∧ ∃ t, hostRun quietRun awaiting2 = .next t :=
  ⟨⟨by simp [NoLoad, quietRun], by simp [quietRun]⟩, rfl, next_of_completes (by decide)⟩
theorem test_witness_SetKeyWritesAndReleases :
    (4 : Nibble) ≠ 3 ∧ awaiting2.run = .awaitingKey 2 ∧ awaiting2.keyPressed 3 = false ∧
    ({ awaiting2 with key := State.reset.key.set 3 true } : State).keyPressed 3 = true ∧ State.reset.run ≠ .awaitingKey 2 := by decide
theorem test_witness_FontAddress : ((regs12 0x0F 0).reg 1).toNat ≤ 15 ∧ 15 < ((regs12 0x10 0).reg 1).toNat := by decide
theorem test_witness_BcdStore :
    ({ State.reset with i := 0xFFD } : State).i.toNat + 2 < 4096 ∧ 4096 ≤ ({ State.reset with i := 0xFFE } : State).i.toNat + 2 := by decide
theorem test_witness_RegisterStore_RegisterLoad :
    ({ State.reset with i := 0xFF0 } : State).i.toNat + (0xF : Nibble).toNat < 4096 ∧
    4096 ≤ ({ State.reset with i := 0xFF1 } : State).i.toNat + (0xF : Nibble).toNat := by decide
theorem test_witness_StoreThenLoadRestoresRegisters :
    ({ State.reset with i := 0xFF0 } : State).i.toNat + (0xF : Nibble).toNat < 4096 ∧
    ∃ t, exec (.storeRegs 0xF) { State.reset with i := 0xFF0 } = .next t ∧ t.i = t.i ∧ t.mem = t.mem := ⟨by decide, _, rfl, rfl, rfl⟩
/-- V0, V1 = 00 E0, the word of CLS, stored over the next instruction. -/
theorem test_witness_StoredCodeRunsNext :
    let s := { State.reset.setReg 1 0xE0 with i := 0x202 }
    s.run = .running ∧ s.pc.toNat % 2 = 0 ∧ s.i = s.pc + 2 ∧ s.pc.toNat + 3 < 4096 ∧ 1 ≤ (1 : Nibble).toNat ∧
      s.i.toNat + (1 : Nibble).toNat < 4096 ∧ decode [s.reg 0, s.reg 1] = .ok (.cls, []) := by decide
theorem test_witness_CanonicalMemoriesAreEqual : Memory.wf [(0x300, 1)] ∧ ∀ a, Memory.read [(0x300, 1)] a = Memory.read [(0x300, 1)] a :=
  ⟨by decide, fun _ => rfl⟩
/-- A run with a tick, a step of SYS and a step of 6XNN. -/
theorem test_witness_TimersCountTicksNotSteps :
    TimersUntouched [.tick, .step] State.reset ∧ ∃ t, hostRun [.tick, .step] State.reset = .next t := by
  refine ⟨⟨by simp, by simp, fun t h => ?_⟩, next_of_completes (by decide)⟩
  cases h
  refine ⟨by simp, fun _ x => ⟨fun h => ?_, fun h => ?_⟩, fun _ _ => trivial⟩
  · cases (show State.reset.tick.fetchDecode = .ok (.sys 0) from rfl).symm.trans h.2
  · cases (show State.reset.tick.fetchDecode = .ok (.sys 0) from rfl).symm.trans h.2
theorem test_witness_SoundLastsAsLongAsSet :
    ∃ t u, exec (.ldStVx 1) (regs12 2 0) = .next t ∧ hostRun (List.replicate 1 .tick) t = .next u ∧ u.soundOn = true ∧ 1 < ((regs12 2 0).reg 1).toNat :=
  ⟨_, _, rfl, rfl, by decide, by decide⟩
theorem test_witness_LoadInstallsOrRefuses :
    (List.replicate 3584 (0 : Byte)).length ≤ 3584 ∧ 3584 < (List.replicate 3585 (0 : Byte)).length ∧ 2 < [(0x6A : Byte), 0x7B, 0x12].length :=
  ⟨by rw [List.length_replicate], by rw [List.length_replicate]; decide, by decide⟩
theorem test_witness_FontGlyphsAfterLoad : (List.replicate 3584 (0xFF : Byte)).length ≤ 3584 := by rw [List.length_replicate]
theorem test_witness_PowerOnWalksZeros : 1792 ≤ 1792 ∧ 0 ≤ 1792 := by decide
theorem test_witness_HaltLastsUntilLoad :
    NoLoad quietRun ∧ halted201.run = .halted ⟨.misalignedFetch, 0x201, none, 0x201⟩ ∧ ∃ t, hostRun quietRun halted201 = .next t :=
  ⟨by simp [NoLoad, quietRun], rfl, next_of_completes (by decide)⟩
/-- The bound of PC is reached: BFFF with V0 = 0xFF (V42.5). -/
theorem test_witness_StepKeepsPcAndStackInRange :
    PcAndStackInRange (State.reset.setReg 0 0xFF) ∧
    ∃ t, step ((State.reset.setReg 0 0xFF).withFetchWord 16 0xBFFF) = .next t ∧ t.pc = 0x10FE :=
  ⟨⟨by decide, by decide⟩, _, rfl, by decide⟩
theorem test_witness_StepKeepsMemoryCanonical :
    MemoryCanonical { State.reset with mem := [(0x300, 1)] } ∧ ∃ t, step { State.reset with mem := [(0x300, 1)] } = .next t := by
  refine ⟨?_, _, rfl⟩
  show Memory.wf [(0x300, 1)]
  decide
theorem test_witness_StepKeepsFaultRecordFitting : FaultRecordFits halted201 ∧ ∃ t, step halted201 = .next t := by
  refine ⟨fun f hf => ?_, _, rfl⟩
  cases hf
  exact ⟨rfl, rfl, rfl, by decide⟩
/-- Records of an execute phase and of a fetch out of bounds that fit: V43.9 and V42.5. -/
theorem test_witness_FaultRecordFits_each :
    FaultRecord.Fits ⟨.operandRange, 0x200, some 0xE19E, 0x10⟩ ((regs12 0x10 0).withFetchWord 16 0xE19E) ∧
    FaultRecord.Fits ⟨.outOfBounds, 0x10FE, none, 0x10FE⟩ (atPc 0x10FE) :=
  ⟨⟨rfl, by decide, by decide, .skp 1, by decide, by decide, by decide⟩, rfl, Or.inl ⟨rfl, by decide, by decide, by decide⟩⟩
theorem test_witness_HostRunsKeepInvariant : Inv halted201 ∧ ∃ t, hostRun quietRun halted201 = .next t := by
  refine ⟨⟨?_, ⟨by decide, by decide⟩, fun f hf => ?_⟩, next_of_completes (by decide)⟩
  · show Memory.wf []
    decide
  · cases hf
    exact ⟨rfl, rfl, rfl, by decide⟩

end Sys2Proof.Tests
end

section
/-! ## What an execute phase and a step can do

SUPPORT. Said once: an execute phase takes the fault of the table of R124, or it completes; and, from that, what a step of a running machine can do
(spec/30_encoding.md R64, spec/60_exceptions.md R124 to R126). -/

namespace Sys2Proof.Machine

/-! ### The fault table of R124 in the terms of the meanings -/

/-- The bound check of the meanings has the condition and the detail of the table (R47, R124). -/
theorem rangeFault_succ (base n : Nat) :
    rangeFault base (n + 1) = if 4096 ≤ base + n then some (BitVec.ofNat 16 (max base 4096)) else none := by
  split
  · exact rangeFault_some.2 ⟨by omega, rfl⟩
  · exact rangeFault_none.2 (by omega)

theorem executeFault_drw (x y n : Nibble) (s : State) :
    executeFault (.drw x y n) s = (rangeFault (s.effAddr 0) n.toNat).map (Prod.mk .outOfBounds) := by
  simp only [executeFault, State.effAddr, Nat.add_zero]
  cases n.toNat with
  | zero => simp [rangeFault]
  | succ n => simp [rangeFault_succ, apply_ite (Option.map _)]

theorem executeFault_ldBVx (x : Nibble) (s : State) :
    executeFault (.ldBVx x) s = (rangeFault (s.effAddr 0) 3).map (Prod.mk .outOfBounds) := by
  simp [executeFault, State.effAddr, rangeFault_succ, apply_ite (Option.map _)]

theorem executeFault_storeRegs (x : Nibble) (s : State) :
    executeFault (.storeRegs x) s = (rangeFault (s.effAddr 0) (x.toNat + 1)).map (Prod.mk .outOfBounds) := by
  simp [executeFault, State.effAddr, rangeFault_succ, apply_ite (Option.map _)]

theorem executeFault_loadRegs (x : Nibble) (s : State) :
    executeFault (.loadRegs x) s = (rangeFault (s.effAddr 0) (x.toNat + 1)).map (Prod.mk .outOfBounds) :=
  executeFault_storeRegs x s

/-- A row of the table that names a fault under a condition. -/
theorem of_ite_eq_fault {c : Prop} [Decidable c] {k k' : FaultKind} {d d' : Word}
    (h : (if c then some (k, d) else none) = some (k', d')) : c ∧ k = k' ∧ d = d' := by
  simpa only [Option.ite_none_right_eq_some, Option.some.injEq, Prod.mk.injEq] using h

/-- A value of at most 15 is a key or digit number (D14). -/
theorem exists_digitOf {b : Byte} (h : ¬ 15 < b.toNat) : ∃ k, digitOf b = some k :=
  Option.ne_none_iff_exists'.1 (mt digitOf_none.1 h)

/-! ### An execute phase faults -/

/-- Where the table of R124 names a fault, the instruction takes it (R125). -/
theorem exec_of_executeFault_some {i : Instr} {s : State} {kind : FaultKind} {detail : Word}
    (h : executeFault i s = some (kind, detail)) : exec i s = .next (s.raise kind (some (encode i)) detail) := by
  cases i with
  | ret =>
    obtain ⟨hsp, rfl, rfl⟩ := of_ite_eq_fault h
    have hpop : s.advance.pop = none := State.pop_none.2 (congrArg Fin.val hsp)
    simp only [exec, execRet, hpop, State.trap]
  | call nnn =>
    obtain ⟨hsp, rfl, rfl⟩ := of_ite_eq_fault h
    have hpush : s.advance.push s.advance.pc = none := State.push_none.2 (congrArg Fin.val hsp)
    simp only [exec, execCall, hpush, State.trap]
  | drw x y n =>
    obtain ⟨d, hrange, ⟨⟩⟩ := Option.map_eq_some_iff.1 (executeFault_drw x y n s ▸ h)
    simp only [exec, execDrw, hrange, State.trap]
  | ldBVx x =>
    obtain ⟨d, hrange, ⟨⟩⟩ := Option.map_eq_some_iff.1 (executeFault_ldBVx x s ▸ h)
    simp only [exec, execLdBVx, hrange, State.trap]
  | storeRegs x =>
    obtain ⟨d, hrange, ⟨⟩⟩ := Option.map_eq_some_iff.1 (executeFault_storeRegs x s ▸ h)
    simp only [exec, execStoreRegs, hrange, State.trap]
  | loadRegs x =>
    obtain ⟨d, hrange, ⟨⟩⟩ := Option.map_eq_some_iff.1 (executeFault_loadRegs x s ▸ h)
    simp only [exec, execLoadRegs, hrange, State.trap]
  | skp x =>
    obtain ⟨hx, rfl, rfl⟩ := of_ite_eq_fault h
    simp only [exec, execSkp, digitOf_none.2 hx, State.trap]
  | sknp x =>
    obtain ⟨hx, rfl, rfl⟩ := of_ite_eq_fault h
    simp only [exec, execSknp, digitOf_none.2 hx, State.trap]
  | ldFVx x =>
    obtain ⟨hx, rfl, rfl⟩ := of_ite_eq_fault h
    simp only [exec, execLdFVx, digitOf_none.2 hx, State.trap]
  | _ => cases h

/-! ### An execute phase completes -/

/-- Where PC may stand after an instruction at PC of `s` completes: the next instruction, the one a skip reaches, a target of JP, CALL or BNNN
(`b` is 0 but for BNNN), or a popped entry (R24, R99 to R107). -/
def NextPc (s : State) (w : Word) : Prop :=
  w = s.pc + 2 ∨ w = s.pc + 2 + 2 ∨ (∃ (nnn : Addr12) (b : Byte), w = zext16 nnn + b.setWidth 16) ∨ ∃ k : Fin 16, w = s.stack.get k

/-- What the completed instruction `i` makes of the run state, PC and the stack. -/
structure Completes (i : Instr) (s t : State) : Prop where
  run : t.run = s.run ∨ ∃ x, i = .ldVxK x ∧ t.run = .awaitingKey x
  pc : NextPc s t.pc
  stack : ∀ k : Fin 16, t.stack.get k = s.stack.get k ∨ t.stack.get k = s.pc + 2

theorem Completes.of_advance {i : Instr} {s t : State} (hrun : t.run = s.run) (hpc : t.pc = s.pc + 2) (hstack : t.stack = s.stack) :
    Completes i s t :=
  ⟨.inl hrun, .inl hpc, fun k => .inl (by rw [hstack])⟩

theorem Completes.of_jump {i : Instr} {s t : State} (hrun : t.run = s.run) (hpc : ∃ (nnn : Addr12) (b : Byte), t.pc = zext16 nnn + b.setWidth 16)
    (hstack : ∀ k : Fin 16, t.stack.get k = s.stack.get k ∨ t.stack.get k = s.pc + 2) : Completes i s t :=
  ⟨.inl hrun, .inr (.inr (.inl hpc)), hstack⟩

theorem Completes.skipIf (i : Instr) (s : State) (c : Bool) : Completes i s (s.advance.skipIf c) := by
  refine ⟨.inl (by simp), ?_, fun k => .inl (by simp)⟩
  cases c
  · exact .inl rfl
  · exact .inr (.inl rfl)

/-- CALL pushes the advanced PC and leaves the other entries (R102). -/
theorem Completes.push {i : Instr} {s u : State} (nnn : Addr12) (h : s.advance.push s.advance.pc = some u) :
    Completes i s (u.jump (zext16 nnn)) := by
  obtain ⟨-, -, hstack, hu⟩ := State.push_some h
  refine .of_jump (by rw [hu]; rfl) ⟨nnn, 0, by simp⟩ fun k => ?_
  rw [State.jump_stack, hstack]
  split
  · exact .inr rfl
  · exact .inl rfl

/-- RET goes to an entry of the stack and keeps them all (R103). -/
theorem Completes.pop {i : Instr} {s u : State} {w : Word} (h : s.advance.pop = some (w, u)) : Completes i s (u.jump w) := by
  obtain ⟨hpos, -, htop, hu⟩ := State.pop_some h
  have hw := htop ⟨s.advance.sp.val - 1, by omega⟩ (Nat.sub_add_cancel hpos)
  exact ⟨.inl (by rw [hu]; rfl), .inr (.inr (.inr ⟨_, hw⟩)), fun k => .inl (by rw [hu]; rfl)⟩

/-- FX65 writes the register file alone (R122). -/
theorem State.loadRegsFrom_frame (s : State) (base : Nat) (x : Nibble) :
    s.loadRegsFrom base (x.toNat + 1) = { s with v := (s.loadRegsFrom base (x.toNat + 1)).v } :=
  (s.loadRegsFrom_spec base (x.toNat + 1) (by omega)).2

/-- Where the table of R124 names no fault, the instruction completes. -/
theorem exec_of_executeFault_none {i : Instr} {s : State} (h : executeFault i s = none) : ∃ t, exec i s = .next t ∧ Completes i s t := by
  cases i with
  | ret =>
    have hsp : s.sp ≠ 0 := by simpa [executeFault] using h
    obtain ⟨⟨w, u⟩, hpop⟩ := Option.ne_none_iff_exists'.1 (mt (State.pop_none (s := s.advance)).1 fun h0 => hsp (Fin.ext h0))
    exact ⟨u.jump w, by simp only [exec, execRet, hpop], .pop hpop⟩
  | call nnn =>
    have hsp : s.sp ≠ 16 := by simpa [executeFault] using h
    obtain ⟨u, hpush⟩ := Option.ne_none_iff_exists'.1 (mt (State.push_none (s := s.advance) (w := s.advance.pc)).1 fun h16 => hsp (Fin.ext h16))
    exact ⟨u.jump (zext16 nnn), by simp only [exec, execCall, hpush], .push nnn hpush⟩
  | drw x y n =>
    have hrange := Option.map_eq_none_iff.1 (executeFault_drw x y n s ▸ h)
    refine ⟨_, by simp only [exec, execDrw, hrange]; rfl, .of_advance ?_ ?_ ?_⟩ <;> rfl
  | ldBVx x =>
    have hrange := Option.map_eq_none_iff.1 (executeFault_ldBVx x s ▸ h)
    refine ⟨_, by simp only [exec, execLdBVx, hrange]; rfl, .of_advance ?_ ?_ ?_⟩ <;> rfl
  | storeRegs x =>
    have hrange := Option.map_eq_none_iff.1 (executeFault_storeRegs x s ▸ h)
    refine ⟨_, by simp only [exec, execStoreRegs, hrange]; rfl, .of_advance ?_ ?_ ?_⟩ <;> rfl
  | loadRegs x =>
    have hrange := Option.map_eq_none_iff.1 (executeFault_loadRegs x s ▸ h)
    refine ⟨_, by simp only [exec, execLoadRegs, hrange]; rfl, ?_⟩
    rw [State.loadRegsFrom_frame]
    exact .of_advance rfl rfl rfl
  | skp x =>
    obtain ⟨k, hdigit⟩ := exists_digitOf (b := s.reg x) (by simpa [executeFault] using h)
    exact ⟨_, by simp only [exec, execSkp, hdigit]; rfl, .skipIf ..⟩
  | sknp x =>
    obtain ⟨k, hdigit⟩ := exists_digitOf (b := s.reg x) (by simpa [executeFault] using h)
    exact ⟨_, by simp only [exec, execSknp, hdigit]; rfl, .skipIf ..⟩
  | ldFVx x =>
    obtain ⟨k, hdigit⟩ := exists_digitOf (b := s.reg x) (by simpa [executeFault] using h)
    refine ⟨_, by simp only [exec, execLdFVx, hdigit]; rfl, .of_advance ?_ ?_ ?_⟩ <;> rfl
  | jp nnn => exact ⟨_, rfl, .of_jump rfl ⟨nnn, 0, by simp⟩ fun _ => .inl rfl⟩
  | jpV0 nnn => exact ⟨_, rfl, .of_jump rfl ⟨nnn, s.reg 0, rfl⟩ fun _ => .inl rfl⟩
  | seByte | sneByte | seReg | sneReg => exact ⟨_, rfl, .skipIf ..⟩
  | ldVxK x => exact ⟨_, rfl, .inr ⟨x, rfl, rfl⟩, .inl rfl, fun _ => .inl rfl⟩
  | _ => exact ⟨_, rfl, .of_advance rfl rfl rfl⟩

/-! ### A step of a running machine -/

/-- A fetch that gives an instruction read it at an even PC inside memory (R64). -/
theorem State.fetchDecode_ok {s : State} {i : Instr} (h : s.fetchDecode = .ok i) :
    s.pc.toNat % 2 = 0 ∧ s.pc.toNat + 1 < 4096 ∧ decodeWord s.fetchWord = .ok i := by
  rcases Nat.mod_two_eq_zero_or_one s.pc.toNat with heven | hodd
  · by_cases hin : s.pc.toNat + 1 < 4096
    · rw [State.fetchDecode, State.fetch_ok heven hin] at h
      cases hd : decodeWord s.fetchWord with
      | error e => simp [hd] at h
      | ok j =>
        obtain rfl : j = i := by simpa [hd] using h
        exact ⟨heven, hin, rfl⟩
    · rw [State.fetchDecode, State.fetch_high heven (by omega)] at h
      cases h
  · rw [State.fetchDecode, State.fetch_odd hodd] at h
    cases h

/-- A fault of the fetch or of the decoder is recorded as R33 says (R48, R51, R78). -/
theorem State.fetchDecode_error_fits {s t : State} (h : s.fetchDecode = .error t) :
    ∃ kind word detail, t = s.raise kind word detail ∧ FaultRecord.Fits ⟨kind, s.pc, word, detail⟩ s := by
  rcases Nat.mod_two_eq_zero_or_one s.pc.toNat with heven | hodd
  · by_cases hin : s.pc.toNat + 1 < 4096
    · rw [State.fetchDecode, State.fetch_ok heven hin] at h
      cases hd : decodeWord s.fetchWord with
      | ok i => simp [hd] at h
      | error e =>
        refine ⟨.illegalInstruction, some s.fetchWord, s.fetchWord, ?_, rfl, rfl, rfl, e, hd⟩
        simpa [hd, eq_comm] using h
    · rw [State.fetchDecode, State.fetch_high heven (by omega)] at h
      obtain rfl := Except.error.inj h
      exact ⟨_, _, _, rfl, rfl, .inl ⟨rfl, heven, by omega, rfl⟩⟩
  · rw [State.fetchDecode, State.fetch_odd hodd] at h
    obtain rfl := Except.error.inj h
    exact ⟨_, _, _, rfl, rfl, rfl, rfl, hodd⟩

/-- The kinds and details that the table of R124 gives an execute phase are those R33 and R123 describe. -/
theorem FaultRecord.fits_of_executeFault {i : Instr} {s : State} {kind : FaultKind} {detail : Word}
    (hi : decodeWord s.fetchWord = .ok i) (h : executeFault i s = some (kind, detail)) :
    FaultRecord.Fits ⟨kind, s.pc, some (encode i), detail⟩ s := by
  have hfrom : FaultRecord.FromExecute ⟨kind, s.pc, some (encode i), detail⟩ s := ⟨i, hi, rfl, h⟩
  cases i with
  | ret | call nnn =>
    obtain ⟨hsp, rfl, rfl⟩ := of_ite_eq_fault h
    exact ⟨rfl, rfl, hsp, hfrom⟩
  | drw | ldBVx | storeRegs | loadRegs =>
    obtain ⟨-, rfl, rfl⟩ := of_ite_eq_fault h
    exact ⟨rfl, .inr hfrom⟩
  | skp x | sknp x | ldFVx x =>
    obtain ⟨hx, rfl, rfl⟩ := of_ite_eq_fault h
    have hw : ((s.reg x).setWidth 16).toNat = (s.reg x).toNat := BitVec.toNat_setWidth_of_le (by decide)
    exact ⟨rfl, by rw [hw]; exact hx, by rw [hw]; omega, hfrom⟩
  | _ => cases h

/-- Everything a step of a running machine can do: take a fault whose record fits, or complete the instruction at PC (R64, R125). -/
theorem step_cases {s : State} (hrun : s.run = .running) :
    (∃ kind word detail, step s = .next (s.raise kind word detail) ∧ FaultRecord.Fits ⟨kind, s.pc, word, detail⟩ s) ∨
    ∃ i t, s.fetchDecode = .ok i ∧ step s = .next t ∧ Completes i s t := by
  cases hfd : s.fetchDecode with
  | error t =>
    obtain ⟨kind, word, detail, rfl, hfits⟩ := State.fetchDecode_error_fits hfd
    exact .inl ⟨kind, word, detail, step_of_error hrun hfd, hfits⟩
  | ok i =>
    rw [step_of_ok hrun hfd]
    cases hfault : executeFault i s with
    | some f =>
      obtain ⟨-, -, hdecode⟩ := State.fetchDecode_ok hfd
      exact .inl ⟨f.1, some (encode i), f.2, exec_of_executeFault_some hfault, FaultRecord.fits_of_executeFault hdecode hfault⟩
    | none =>
      obtain ⟨t, hexec, hdone⟩ := exec_of_executeFault_none hfault
      exact .inr ⟨i, t, rfl, hexec, hdone⟩

/-- A step that is not of a running machine changes nothing (R65, R127). -/
theorem step_of_not_running {s : State} (h : s.run ≠ .running) : step s = .next s := by
  cases hrun : s.run with
  | running => exact absurd hrun h
  | awaitingKey x => exact step_awaiting hrun
  | halted f => exact step_halted hrun

/-- A completed instruction leaves the machine running or awaiting a key. -/
theorem Completes.not_halted {i : Instr} {s t : State} (h : Completes i s t) (hs : s.run = .running) :
    t.run = .running ∨ ∃ x, t.run = .awaitingKey x := by
  rcases h.run with hrun | ⟨x, -, hrun⟩
  · exact .inl (hrun.trans hs)
  · exact .inr ⟨x, hrun⟩

theorem stepResult_of_next {s t : State} (h : step s = .next t) : stepResult s = some (resultOf s.run t.run) := by
  rw [stepResult, h]

end Sys2Proof.Machine
end

section
/-! ## The state and its invariant (spec/10_state.md) -/

namespace Sys2Proof.Machine

/-! ### PC and the stack stay in range -/

/-- Fetched at an even PC inside memory, an instruction leaves PC at most 0x10FE, which BNNN reaches (R24). -/
theorem NextPc.le {s : State} {w : Word} (h : NextPc s w) (hin : s.pc.toNat + 1 < 4096)
    (hstack : ∀ k : Fin 16, (s.stack.get k).toNat ≤ 0x1000) : w.toNat ≤ 0x10FE := by
  rcases h with rfl | rfl | ⟨nnn, b, rfl⟩ | ⟨k, rfl⟩
  · bv_omega
  · bv_omega
  · have hn : (zext16 nnn).toNat = nnn.toNat := BitVec.toNat_setWidth_of_le (by decide)
    have hb : (b.setWidth 16).toNat = b.toNat := BitVec.toNat_setWidth_of_le (by decide)
    rw [BitVec.toNat_add, hn, hb]
    omega
  · exact (hstack k).trans (by decide)

/-- A completed instruction keeps the bounds of R24 and R102. -/
theorem Completes.pcAndStackInRange {i : Instr} {s t : State} (h : Completes i s t) (heven : s.pc.toNat % 2 = 0)
    (hin : s.pc.toNat + 1 < 4096) (hs : PcAndStackInRange s) : PcAndStackInRange t := by
  obtain ⟨-, hstack⟩ := hs
  refine ⟨h.pc.le hin fun k => (hstack k).1, fun k => ?_⟩
  rcases h.stack k with hk | hk
  · rw [hk]; exact hstack k
  · rw [hk]; constructor <;> bv_omega

/-- Settles O54: a fault keeps PC and the stack, and a completed instruction was fetched at an even PC below 0xFFF. -/
theorem stepKeepsPcAndStackInRange : Obligations.StepKeepsPcAndStackInRange := by
  intro s t hs hstep
  by_cases hrun : s.run = .running
  · rcases step_cases hrun with ⟨kind, word, detail, hnext, -⟩ | ⟨i, u, hfd, hnext, hdone⟩
    · obtain rfl := Host.Outcome.next.inj (hnext.symm.trans hstep)
      exact hs
    · obtain rfl := Host.Outcome.next.inj (hnext.symm.trans hstep)
      obtain ⟨heven, hin, -⟩ := State.fetchDecode_ok hfd
      exact hdone.pcAndStackInRange heven hin hs
  · obtain rfl := Host.Outcome.next.inj ((step_of_not_running hrun).symm.trans hstep)
    exact hs

/-! ### The fault record fits -/

/-- Settles O55: only a fault sets a record, and `step_cases` says that it fits the state it froze. -/
theorem stepKeepsFaultRecordFitting : Obligations.StepKeepsFaultRecordFitting := by
  intro s t hs hstep
  by_cases hrun : s.run = .running
  · rcases step_cases hrun with ⟨kind, word, detail, hnext, hfits⟩ | ⟨i, u, -, hnext, hdone⟩
    · obtain rfl := Host.Outcome.next.inj (hnext.symm.trans hstep)
      intro f hf
      obtain rfl := RunState.halted.inj hf
      exact hfits.congr rfl rfl rfl rfl rfl
    · obtain rfl := Host.Outcome.next.inj (hnext.symm.trans hstep)
      intro f hf
      rcases hdone.not_halted hrun with hu | ⟨x, hu⟩ <;> cases hu.symm.trans hf
  · obtain rfl := Host.Outcome.next.inj ((step_of_not_running hrun).symm.trans hstep)
    exact hs

/-! ### Step results -/

/-- Settles O8, by the run state and what a step of a running machine can do. -/
theorem stepResults : Obligations.StepResults := by
  refine fun s => ⟨fun hrun => ?_, fun x hx => ?_, fun f hf => ?_⟩
  · rcases step_cases hrun with ⟨kind, word, detail, hnext, -⟩ | ⟨i, t, -, hnext, hdone⟩
    · exact ⟨_, hnext, .inr ⟨_, rfl, stepResult_of_next hnext⟩⟩
    · refine ⟨t, hnext, .inl ⟨hdone.not_halted hrun, ?_⟩⟩
      rw [stepResult_of_next hnext, hrun]
      rcases hdone.not_halted hrun with ht | ⟨x, ht⟩ <;> rw [ht] <;> rfl
  · refine ⟨step_awaiting hx, ?_⟩
    rw [stepResult_of_next (step_awaiting hx), hx]; rfl
  · refine ⟨step_halted hf, ?_⟩
    rw [stepResult_of_next (step_halted hf), hf]; rfl

/-! ### Keys, ticks and reset -/

/-- The frame of a key event that releases no wait (R42). -/
theorem frame_key (s : State) (key : Vector Bool 16) : SameBut [.keys] s { s with key := key } := by
  intro p hp
  cases p <;> simp at hp <;> simp [Part.Same, State.reg]

/-- The frame of a release: the keypad, V[x] and the run state (R42, R116). -/
theorem frame_release (s : State) (key : Vector Bool 16) (x : Nibble) (b : Byte) :
    SameBut [.regs, .keys, .run] s { ({ s with key := key }.setReg x b) with run := .running } := by
  intro p hp
  cases p <;> simp at hp <;> simp [Part.Same]

/-- A release leaves the registers as the write of V[x] does (R42). -/
theorem release_reg (s : State) (key : Vector Bool 16) (x r : Nibble) (b : Byte) :
    State.reg { ({ s with key := key }.setReg x b) with run := .running } r = if r = x then b else s.reg r :=
  State.setReg_reg s x r b

/-- Settles O34, by the two outcomes of a key event (`State.setKey_cases`). -/
theorem setKeyWritesAndReleases : Obligations.SetKeyWritesAndReleases := by
  intro k pressed s
  refine ⟨by simp [State.setKey_keyPressed], fun j hj => by simp [State.setKey_keyPressed, hj], ?_⟩
  rcases State.setKey_cases s k pressed with ⟨x, hx, hold, rfl, hset⟩ | ⟨hkeep, hset⟩
  · rw [hset]
    refine ⟨frame_release s _ x _, fun y hy _ _ => ?_, ?_⟩
    · obtain rfl := RunState.awaitingKey.inj (hx.symm.trans hy)
      refine ⟨?_, fun r hr => ?_, rfl⟩
      · rw [release_reg, if_pos rfl]
        exact BitVec.toNat_setWidth_of_le (by decide)
      · rw [release_reg, if_neg (by simpa using hr)]
    · rintro (hidle | hdown | hup)
      · exact absurd hx (hidle x)
      · cases hold.symm.trans hdown
      · cases hup
  · rw [hset]
    have hframe := frame_key s (s.key.set k.toNat pressed k.isLt)
    refine ⟨SameBut.mono (by simp) hframe, fun x hx hold hpressed => ?_, fun _ => hframe⟩
    rcases hkeep x hx with hdown | hup
    · cases hold.symm.trans hdown
    · cases hpressed.symm.trans hup

/-- Settles O44: `timerDown_toNat` for both timers, and every other piece of state is the same by definition. -/
theorem tickCountsDown : Obligations.TickCountsDown := by
  refine fun s => ⟨timerDown_toNat s.dt, timerDown_toNat s.st, fun p hp => ?_⟩
  cases p <;> simp at hp <;> simp [Part.Same]

/-- Settles O56: memory at power-on lists no byte, PC is 0x200, the stack is all zeros and no fault is recorded. -/
theorem invariantAtReset : Obligations.InvariantAtReset :=
  ⟨State.reset_mem_wf, ⟨by decide, by decide⟩, fun _ hf => nomatch hf⟩

end Sys2Proof.Machine
end

section
/-! ## Memory: the most recent write, and the bytes a load leaves (spec/20_memory.md) -/

namespace Sys2Proof.Machine

/-! ### Reads after a list of writes -/

/-- After byte writes in order, a read gives the last one to its address, or what the memory held before them (R57). -/
theorem Memory.read_foldl_write (writes : List (Nat × Byte)) (m : Memory) (a : Nat) :
    Memory.read (writes.foldl (fun m w => Memory.write m w.1 w.2) m) a =
      (writes.reverse.find? (fun w => w.1 == a)).elim (m.read a) Prod.snd := by
  induction writes using List.reverseRecOn with
  | nil => rfl
  | append_singleton ws w ih =>
    simp only [List.foldl_append, List.foldl_cons, List.foldl_nil, Memory.read_write, List.reverse_concat]
    by_cases hlast : w.1 = a
    · rw [if_pos hlast, List.find?_cons_of_pos (by simpa using hlast), Option.elim_some]
    · rw [if_neg hlast, List.find?_cons_of_neg (by simpa using hlast), ih]

/-- Settles O42: `Memory.read_foldl_write` from the reset contents. -/
theorem readsGiveLatestWrite : Obligations.ReadsGiveLatestWrite := by
  intro writes a
  rw [Memory.read_foldl_write]
  cases writes.reverse.find? (fun w => w.1 == a) <;> rfl

/-! ### The font after a load -/

/-- A run of writes leaves the bytes below its first address. -/
theorem Memory.read_writeBytes_below {m : Memory} {a c : Nat} (bs : List Byte) (h : c < a) :
    (m.writeBytes a bs).read c = m.read c := by
  rw [Memory.read_writeBytes, dif_neg (by omega)]

/-- A load of an image that fits resets the machine and writes the image from 0x200 on (R146). -/
theorem State.load_ok (s : State) {image : List Byte} (h : image.length ≤ 3584) :
    s.load image = (.ok, { s.resetOf with mem := Memory.writeBytes [] 0x200 image }) :=
  if_neg (Nat.not_lt.2 h)

/-- Settles O48: the image is written above the font, so each font byte reads as at reset, and those bytes are the table's. -/
theorem fontGlyphsAfterLoad : Obligations.FontGlyphsAfterLoad := by
  intro s image hfits
  refine ⟨_, s.load_ok hfits, ?_⟩
  have hglyph : ∀ d ∈ List.range 16,
      (List.range 5).map (fun k => (Memory.writeBytes [] 0x200 image).read (0x000 + 5 * d + k)) =
        (List.range 5).map (fun k => Memory.initial (0x000 + 5 * d + k)) := by
    refine fun d hd => List.map_congr_left fun k hk => Memory.read_writeBytes_below image ?_
    rw [List.mem_range] at hd hk
    omega
  rw [List.map_congr_left hglyph]
  decide

end Sys2Proof.Machine
end

section
/-! ## Encoding against the opcode table (spec/30_encoding.md R67 to R79, spec/opcode_table.json) -/

namespace Sys2Proof

/-! ### A word from the fields that a row fixes -/

section
variable {w : Word} {op n : Nibble} {nn : Byte}

theorem formatFA_of_fieldOp (hop : fieldOp w = op) : formatFA op (fieldNNN w) = w :=
  hop ▸ formatFA_fields w

theorem formatFXK_of_fieldOp (hop : fieldOp w = op) : formatFXK op (fieldX w) (fieldNN w) = w :=
  hop ▸ formatFXK_fields w

theorem formatFXK_of_fieldNN (hop : fieldOp w = op) (hnn : fieldNN w = nn) : formatFXK op (fieldX w) nn = w :=
  hnn ▸ formatFXK_of_fieldOp hop

theorem formatFXYN_of_fieldOp (hop : fieldOp w = op) : formatFXYN op (fieldX w) (fieldY w) (fieldN w) = w :=
  hop ▸ formatFXYN_fields w

theorem formatFXYN_of_fieldN (hop : fieldOp w = op) (hn : fieldN w = n) : formatFXYN op (fieldX w) (fieldY w) n = w :=
  hn ▸ formatFXYN_of_fieldOp hop

/-! ### The fields that a mask of the table reads -/

theorem fieldOp_of_and (h : w &&& 0xF000#16 = formatFXYN op 0 0 0) : fieldOp w = op := by
  rw [← formatFXYN_fields w, formatFXYN_and, formatFXYN_inj] at h
  obtain ⟨hop, -⟩ := h
  exact hop

theorem fieldOp_fieldN_of_and (h : w &&& 0xF00F#16 = formatFXYN op 0 0 n) : fieldOp w = op ∧ fieldN w = n := by
  rw [← formatFXYN_fields w, formatFXYN_and_n, formatFXYN_inj] at h
  obtain ⟨hop, -, -, hn⟩ := h
  exact ⟨hop, hn⟩

theorem fieldOp_fieldNN_of_and (h : w &&& 0xF0FF#16 = formatFXK op 0 nn) : fieldOp w = op ∧ fieldNN w = nn := by
  rw [← formatFXK_fields w, formatFXK_and_nn] at h
  exact ⟨by simpa using congrArg fieldOp h, by simpa using congrArg fieldNN h⟩

theorem formatFA_of_and (h : w &&& 0xF000#16 = formatFXYN op 0 0 0) : formatFA op (fieldNNN w) = w :=
  formatFA_of_fieldOp (fieldOp_of_and h)

theorem formatFXK_of_and (h : w &&& 0xF000#16 = formatFXYN op 0 0 0) : formatFXK op (fieldX w) (fieldNN w) = w :=
  formatFXK_of_fieldOp (fieldOp_of_and h)

theorem formatFXK_of_and_nn (h : w &&& 0xF0FF#16 = formatFXK op 0 nn) : formatFXK op (fieldX w) nn = w :=
  (fieldOp_fieldNN_of_and h).elim formatFXK_of_fieldNN

theorem formatFXYN_of_and_n (h : w &&& 0xF00F#16 = formatFXYN op 0 0 n) : formatFXYN op (fieldX w) (fieldY w) n = w :=
  (fieldOp_fieldN_of_and h).elim formatFXYN_of_fieldN

end

/-! ### The decoder and the encoder are inverse -/

theorem wellFormed_sys {nnn : Addr12} : wellFormed (.sys nnn) = true ↔ nnn ≠ 0x0E0 ∧ nnn ≠ 0x0EE := by
  simp [wellFormed, sysOperandOk]

/-- SYS is the one instruction some of whose operands no word decodes to (R72, R108). -/
theorem wellFormed_or_sys (i : Instr) : wellFormed i = true ∨ i = .sys 0x0E0 ∨ i = .sys 0x0EE := by
  cases i with
  | sys nnn => simp only [wellFormed_sys, Instr.sys.injEq]; tauto
  | _ => exact .inl rfl

theorem formatFA_ne_formatFA {op : Nibble} {nnn nnn' : Addr12} (h : nnn ≠ nnn') : formatFA op nnn ≠ formatFA op nnn' :=
  fun hw => h (by simpa using congrArg fieldNNN hw)

theorem decodeOp0_formatFA {nnn : Addr12} (hcls : nnn ≠ 0x0E0) (hret : nnn ≠ 0x0EE) : decodeOp0 (formatFA 0 nnn) = .sys nnn := by
  have hwcls : formatFA 0 nnn ≠ 0x00E0 := formatFA_ne_formatFA hcls
  have hwret : formatFA 0 nnn ≠ 0x00EE := formatFA_ne_formatFA hret
  rw [decodeOp0, if_neg hwcls, if_neg hwret, fieldNNN_formatFA]

/-- The decoder inverts the encoder (R69, R72 to R77). -/
theorem decodeWord_encode {i : Instr} (h : wellFormed i = true) : decodeWord (encode i) = .ok i := by
  cases i with
  | cls | ret => rfl
  | sys nnn =>
    obtain ⟨hcls, hret⟩ := wellFormed_sys.1 h
    simpa [encode, decodeWord] using decodeOp0_formatFA hcls hret
  | ldReg | orReg | andReg | xorReg | addReg | subReg | shr | subnReg | shl => simp [encode, decodeWord, decodeOp8]
  | skp | sknp => simp [encode, decodeWord, decodeOpE]
  | ldVxDt | ldVxK | ldDtVx | ldStVx | addIVx | ldFVx | ldBVx | storeRegs | loadRegs => simp [encode, decodeWord, decodeOpF]
  | _ => simp [encode, decodeWord]

theorem encode_decodeOp0 {w : Word} (hop : fieldOp w = 0) : encode (decodeOp0 w) = w := by
  unfold decodeOp0
  split_ifs with hcls hret
  · exact hcls.symm
  · exact hret.symm
  · exact formatFA_of_fieldOp hop

/-- A row of a decoder's table of `if`s: the instruction of the row, or what the rows below answer. -/
theorem encode_of_ite {w : Word} {i j : Instr} {c : Prop} [Decidable c] {below : Except DecodeError Instr}
    (hrow : c → encode j = w) (hbelow : below = .ok i → encode i = w) (h : (if c then .ok j else below) = .ok i) : encode i = w := by
  split_ifs at h with hc
  · exact Except.ok.inj h ▸ hrow hc
  · exact hbelow h

theorem encode_of_decodeOp8 {w : Word} {i : Instr} (hop : fieldOp w = 8) : decodeOp8 w = .ok i → encode i = w := by
  unfold decodeOp8
  iterate 9 refine encode_of_ite (formatFXYN_of_fieldN hop) ?_
  nofun

theorem encode_of_decodeOpE {w : Word} {i : Instr} (hop : fieldOp w = 0xE) : decodeOpE w = .ok i → encode i = w := by
  unfold decodeOpE
  iterate 2 refine encode_of_ite (formatFXK_of_fieldNN hop) ?_
  nofun

theorem encode_of_decodeOpF {w : Word} {i : Instr} (hop : fieldOp w = 0xF) : decodeOpF w = .ok i → encode i = w := by
  unfold decodeOpF
  iterate 9 refine encode_of_ite (formatFXK_of_fieldNN hop) ?_
  nofun

/-- The encoder gives back the word decoded (R69, R71 to R77). -/
theorem encode_of_decodeWord {w : Word} {i : Instr} (h : decodeWord w = .ok i) : encode i = w := by
  rcases nibble_cases (fieldOp w) with
    hop | hop | hop | hop | hop | hop | hop | hop | hop | hop | hop | hop | hop | hop | hop | hop <;>
    simp only [decodeWord, hop, BitVec.ofNat_eq_ofNat, Except.ok.injEq] at h
  · exact h ▸ encode_decodeOp0 hop
  · exact h ▸ formatFA_of_fieldOp hop
  · exact h ▸ formatFA_of_fieldOp hop
  · exact h ▸ formatFXK_of_fieldOp hop
  · exact h ▸ formatFXK_of_fieldOp hop
  · exact encode_of_ite (formatFXYN_of_fieldN hop) (by nofun) h
  · exact h ▸ formatFXK_of_fieldOp hop
  · exact h ▸ formatFXK_of_fieldOp hop
  · exact encode_of_decodeOp8 hop h
  · exact encode_of_ite (formatFXYN_of_fieldN hop) (by nofun) h
  · exact h ▸ formatFA_of_fieldOp hop
  · exact h ▸ formatFA_of_fieldOp hop
  · exact h ▸ formatFXK_of_fieldOp hop
  · exact h ▸ formatFXYN_of_fieldOp hop
  · exact encode_of_decodeOpE hop h
  · exact encode_of_decodeOpF hop h

/-! ### The rows of opcode_table.json -/

open Laws.EncodesItsRow in
/-- An instruction's word matches its own row: the laws of the instructions together. -/
theorem encode_and_tableRow : (i : Instr) → encode i &&& (tableRow i).2 = (tableRow i).1
  | .cls => cls | .ret => ret | .sys nnn => sys nnn
  | .jp nnn => jp nnn | .call nnn => call nnn | .ldI nnn => ldI nnn | .jpV0 nnn => jpV0 nnn
  | .seByte x nn => seByte x nn | .sneByte x nn => sneByte x nn | .ldByte x nn => ldByte x nn
  | .addByte x nn => addByte x nn | .rnd x nn => rnd x nn | .drw x y n => drw x y n
  | .seReg x y => seReg x y | .sneReg x y => sneReg x y | .ldReg x y => ldReg x y
  | .orReg x y => orReg x y | .andReg x y => andReg x y | .xorReg x y => xorReg x y
  | .addReg x y => addReg x y | .subReg x y => subReg x y | .subnReg x y => subnReg x y
  | .shr x y => shr x y | .shl x y => shl x y
  | .skp x => skp x | .sknp x => sknp x | .ldVxDt x => ldVxDt x | .ldVxK x => ldVxK x
  | .ldDtVx x => ldDtVx x | .ldStVx x => ldStVx x | .addIVx x => addIVx x | .ldFVx x => ldFVx x
  | .ldBVx x => ldBVx x | .storeRegs x => storeRegs x | .loadRegs x => loadRegs x

/-- A word that matches a row encodes an instruction of that row, whose operands are the fields of the word (R68, R69). -/
theorem exists_encode_of_and_tableRow {w : Word} {j : Instr} (h : w &&& (tableRow j).2 = (tableRow j).1) :
    ∃ i, encode i = w ∧ tableRow i = tableRow j := by
  cases j with
  | cls => exact ⟨.cls, h.symm.trans BitVec.and_allOnes, rfl⟩
  | ret => exact ⟨.ret, h.symm.trans BitVec.and_allOnes, rfl⟩
  | sys => exact ⟨.sys (fieldNNN w), formatFA_of_and h, rfl⟩
  | jp => exact ⟨.jp (fieldNNN w), formatFA_of_and h, rfl⟩
  | call => exact ⟨.call (fieldNNN w), formatFA_of_and h, rfl⟩
  | ldI => exact ⟨.ldI (fieldNNN w), formatFA_of_and h, rfl⟩
  | jpV0 => exact ⟨.jpV0 (fieldNNN w), formatFA_of_and h, rfl⟩
  | seByte => exact ⟨.seByte (fieldX w) (fieldNN w), formatFXK_of_and h, rfl⟩
  | sneByte => exact ⟨.sneByte (fieldX w) (fieldNN w), formatFXK_of_and h, rfl⟩
  | ldByte => exact ⟨.ldByte (fieldX w) (fieldNN w), formatFXK_of_and h, rfl⟩
  | addByte => exact ⟨.addByte (fieldX w) (fieldNN w), formatFXK_of_and h, rfl⟩
  | rnd => exact ⟨.rnd (fieldX w) (fieldNN w), formatFXK_of_and h, rfl⟩
  | drw => exact ⟨.drw (fieldX w) (fieldY w) (fieldN w), formatFXYN_of_fieldOp (fieldOp_of_and h), rfl⟩
  | seReg => exact ⟨.seReg (fieldX w) (fieldY w), formatFXYN_of_and_n h, rfl⟩
  | sneReg => exact ⟨.sneReg (fieldX w) (fieldY w), formatFXYN_of_and_n h, rfl⟩
  | ldReg => exact ⟨.ldReg (fieldX w) (fieldY w), formatFXYN_of_and_n h, rfl⟩
  | orReg => exact ⟨.orReg (fieldX w) (fieldY w), formatFXYN_of_and_n h, rfl⟩
  | andReg => exact ⟨.andReg (fieldX w) (fieldY w), formatFXYN_of_and_n h, rfl⟩
  | xorReg => exact ⟨.xorReg (fieldX w) (fieldY w), formatFXYN_of_and_n h, rfl⟩
  | addReg => exact ⟨.addReg (fieldX w) (fieldY w), formatFXYN_of_and_n h, rfl⟩
  | subReg => exact ⟨.subReg (fieldX w) (fieldY w), formatFXYN_of_and_n h, rfl⟩
  | subnReg => exact ⟨.subnReg (fieldX w) (fieldY w), formatFXYN_of_and_n h, rfl⟩
  | shr => exact ⟨.shr (fieldX w) (fieldY w), formatFXYN_of_and_n h, rfl⟩
  | shl => exact ⟨.shl (fieldX w) (fieldY w), formatFXYN_of_and_n h, rfl⟩
  | skp => exact ⟨.skp (fieldX w), formatFXK_of_and_nn h, rfl⟩
  | sknp => exact ⟨.sknp (fieldX w), formatFXK_of_and_nn h, rfl⟩
  | ldVxDt => exact ⟨.ldVxDt (fieldX w), formatFXK_of_and_nn h, rfl⟩
  | ldVxK => exact ⟨.ldVxK (fieldX w), formatFXK_of_and_nn h, rfl⟩
  | ldDtVx => exact ⟨.ldDtVx (fieldX w), formatFXK_of_and_nn h, rfl⟩
  | ldStVx => exact ⟨.ldStVx (fieldX w), formatFXK_of_and_nn h, rfl⟩
  | addIVx => exact ⟨.addIVx (fieldX w), formatFXK_of_and_nn h, rfl⟩
  | ldFVx => exact ⟨.ldFVx (fieldX w), formatFXK_of_and_nn h, rfl⟩
  | ldBVx => exact ⟨.ldBVx (fieldX w), formatFXK_of_and_nn h, rfl⟩
  | storeRegs => exact ⟨.storeRegs (fieldX w), formatFXK_of_and_nn h, rfl⟩
  | loadRegs => exact ⟨.loadRegs (fieldX w), formatFXK_of_and_nn h, rfl⟩

/-- The decoder reads the encoding of every instruction: as that instruction, or as CLS or RET where SYS has the operand of their words (R72). -/
theorem decodeWord_encode_cases (i : Instr) :
    ∃ k, decodeWord (encode i) = .ok k ∧ (tableRow i = tableRow k ∨ tableRow i = (0x0000, 0xF000) ∧ (k = .cls ∨ k = .ret)) := by
  rcases wellFormed_or_sys i with hi | rfl | rfl
  · exact ⟨i, decodeWord_encode hi, .inl rfl⟩
  · exact ⟨.cls, rfl, .inr ⟨rfl, .inl rfl⟩⟩
  · exact ⟨.ret, rfl, .inr ⟨rfl, .inr rfl⟩⟩

/-- A word that matches a row decodes, to an instruction of that row or to CLS or RET where the row is that of SYS. -/
theorem decodeWord_of_and_tableRow {w : Word} {j : Instr} (h : w &&& (tableRow j).2 = (tableRow j).1) :
    ∃ k, decodeWord w = .ok k ∧ (tableRow j = tableRow k ∨ tableRow j = (0x0000, 0xF000) ∧ (k = .cls ∨ k = .ret)) := by
  obtain ⟨i, rfl, hrow⟩ := exists_encode_of_and_tableRow h
  exact hrow ▸ decodeWord_encode_cases i

theorem and_tableRow_of_decodeWord {w : Word} {i : Instr} (h : decodeWord w = .ok i) : w &&& (tableRow i).2 = (tableRow i).1 :=
  encode_of_decodeWord h ▸ encode_and_tableRow i

/-- Settles O4: a word that decodes is the encoding of its instruction and so matches its row; a word that matches a row encodes an instruction of that
row, and the decoder inverts the encoder but for CLS and RET. -/
theorem decodingSelectsOneTableRow : Obligations.DecodingSelectsOneTableRow := by
  intro w
  refine ⟨⟨fun ⟨i, hi⟩ => ⟨i, and_tableRow_of_decodeWord hi⟩, fun ⟨j, hj⟩ => ?_⟩,
    fun i hi => ⟨and_tableRow_of_decodeWord hi, fun j hj => ?_⟩⟩
  · obtain ⟨k, hk, -⟩ := decodeWord_of_and_tableRow hj
    exact ⟨k, hk⟩
  · obtain ⟨k, hk, hrow⟩ := decodeWord_of_and_tableRow hj
    obtain rfl := Except.ok.inj (hk.symm.trans hi)
    exact hrow

end Sys2Proof
end

section
/-! ## Register and ALU instructions (spec/40_alu.md R82 to R92) -/

namespace Sys2Proof.Machine

/-! ### Reads after a flag and a result (R14, R19) -/

@[simp] theorem State.setFlagThenReg_reg_same (s : State) (x : Nibble) (f b : Byte) : (s.setFlagThenReg x f b).reg x = b := by
  rw [State.setFlagThenReg_reg, if_pos rfl]

/-- A destination other than VF leaves the flag. -/
theorem State.setFlagThenReg_reg_flag (s : State) {x : Nibble} (f b : Byte) (hx : x ≠ 0xF) : (s.setFlagThenReg x f b).reg 0xF = f := by
  rw [State.setFlagThenReg_reg, if_neg hx.symm, if_pos rfl]

/-! ### Flag values and shifted bytes as numbers -/

theorem carryFlag_eq (a b : Byte) : carryFlag a b = if 255 < a.toNat + b.toNat then 0x01 else 0x00 := by
  simp only [carryFlag, flagByte, decide_eq_true_eq]

theorem noBorrowFlag_eq (a b : Byte) : noBorrowFlag a b = if b.toNat ≤ a.toNat then 0x01 else 0x00 := by
  simp only [noBorrowFlag, flagByte, decide_eq_true_eq]

theorem flagByte_toNat (c : Bool) : (flagByte c).toNat = c.toNat := by
  cases c <;> rfl

/-- Bit 0 is the remainder that halving loses (R90). -/
theorem shiftRightFlag_toNat (a : Byte) : (shiftRightFlag a).toNat = a.toNat % 2 := by
  rw [shiftRightFlag, flagByte_toNat, BitVec.getLsbD, Nat.toNat_testBit, Nat.pow_zero, Nat.div_one]

/-- Bit 7 is the 256 that doubling loses (R92). -/
theorem shiftLeftFlag_toNat (a : Byte) : (shiftLeftFlag a).toNat = a.toNat / 128 := by
  rw [shiftLeftFlag, flagByte_toNat, BitVec.getLsbD, Nat.toNat_testBit]
  omega

theorem shiftRight_one_toNat (a : Byte) : (a >>> 1).toNat = a.toNat / 2 := by
  rw [BitVec.toNat_ushiftRight, Nat.shiftRight_one]

theorem shiftLeft_one_toNat (a : Byte) : (a <<< 1).toNat = 2 * a.toNat % 256 := by
  rw [BitVec.toNat_shiftLeft, Nat.shiftLeft_eq, Nat.pow_one, Nat.mul_comm]

/-- A difference of bytes, with the 256 that keeps the natural numbers above 0. -/
theorem sub_toNat_mod (a b : Byte) : (a - b).toNat = (a.toNat + 256 - b.toNat) % 256 := by
  bv_omega

/-! ### Arithmetic with a flag -/

/-- Settles O16, by `carryFlag_eq` and the order of the two writes. -/
theorem addWithCarry : Obligations.AddWithCarry := by
  intro x y s
  refine ⟨decodeWord_encode (i := .addReg x y) rfl, _, rfl, ?_, fun hx => ?_, frame_setFlagThenReg s x _ _⟩
  · rw [State.setFlagThenReg_reg_same, BitVec.toNat_add]
  · rw [State.setFlagThenReg_reg_flag _ _ _ hx, carryFlag_eq]

/-- Settles O17, by `sub_toNat_mod` and `noBorrowFlag_eq`, the operands in either order. -/
theorem subtractBothWays : Obligations.SubtractBothWays := by
  intro x y s
  refine ⟨decodeWord_encode (i := .subReg x y) rfl, decodeWord_encode (i := .subnReg x y) rfl,
    ⟨_, rfl, ?_, fun hx => ?_, frame_setFlagThenReg s x _ _⟩, ⟨_, rfl, ?_, fun hx => ?_, frame_setFlagThenReg s x _ _⟩⟩
  · rw [State.setFlagThenReg_reg_same, sub_toNat_mod]
  · rw [State.setFlagThenReg_reg_flag _ _ _ hx, noBorrowFlag_eq]
  · rw [State.setFlagThenReg_reg_same, sub_toNat_mod]
  · rw [State.setFlagThenReg_reg_flag _ _ _ hx, noBorrowFlag_eq]

/-- Settles O18: each shift halves or doubles V[X], and its flag is the bit that leaves. -/
theorem shiftByOne : Obligations.ShiftByOne := by
  intro x y s
  refine ⟨decodeWord_encode (i := .shr x y) rfl, decodeWord_encode (i := .shl x y) rfl,
    ⟨_, rfl, ?_, fun hx => ?_, frame_setFlagThenReg s x _ _⟩, ⟨_, rfl, ?_, fun hx => ?_, frame_setFlagThenReg s x _ _⟩⟩
  · rw [State.setFlagThenReg_reg_same, shiftRight_one_toNat]
  · rw [State.setFlagThenReg_reg_flag _ _ _ hx, shiftRightFlag_toNat]
  · rw [State.setFlagThenReg_reg_same, shiftLeft_one_toNat]
  · rw [State.setFlagThenReg_reg_flag _ _ _ hx, shiftLeftFlag_toNat]

/-! ### One destination and no flag -/

/-- Settles O14: V[X] is the one register written (`frame_setReg`). -/
theorem loadAndAddImmediate : Obligations.LoadAndAddImmediate := by
  intro x nn s
  refine ⟨decodeWord_encode (i := .ldByte x nn) rfl, decodeWord_encode (i := .addByte x nn) rfl,
    ⟨_, rfl, ?_, frame_setReg s x _⟩, ⟨_, rfl, ?_, frame_setReg s x _⟩⟩
  · rw [State.setReg_reg_same]
  · rw [State.setReg_reg_same, BitVec.toNat_add]

/-- Settles O15: V[X] is the one register written (`frame_setReg`), and each operation acts on every bit alone. -/
theorem copyAndLogic : Obligations.CopyAndLogic := by
  intro x y s
  refine ⟨decodeWord_encode (i := .ldReg x y) rfl, decodeWord_encode (i := .orReg x y) rfl,
    decodeWord_encode (i := .andReg x y) rfl, decodeWord_encode (i := .xorReg x y) rfl,
    ⟨_, rfl, ?_, frame_setReg s x _⟩, ⟨_, rfl, fun b => ?_, frame_setReg s x _⟩,
    ⟨_, rfl, fun b => ?_, frame_setReg s x _⟩, ⟨_, rfl, fun b => ?_, frame_setReg s x _⟩⟩
  · rw [State.setReg_reg_same]
  · rw [State.setReg_reg_same, BitVec.getLsbD_or]
  · rw [State.setReg_reg_same, BitVec.getLsbD_and]
  · rw [State.setReg_reg_same, BitVec.getLsbD_xor]

end Sys2Proof.Machine
end

section
/-! ## Display instructions (spec/41_display.md R94 to R97) -/

namespace Sys2Proof.Machine

/-! ### Clearing the screen -/

/-- The frame of an instruction that writes the framebuffer (R30). -/
theorem frame_screen (s : State) (fb : Framebuffer) : SameBut [.screen, .pc] s { s.advance with fb := fb } := by
  intro p hp
  cases p <;> simp at hp <;> simp [Part.Same, State.reg, State.keyPressed]

/-- Settles O20: the cleared framebuffer is the one write beside PC (`frame_screen`). -/
theorem clearScreen : Obligations.ClearScreen :=
  fun s => ⟨rfl, _, rfl, Framebuffer.pixel_clear, frame_screen s _, rfl⟩

/-! ### What the loops of DXYN do to each pixel -/

/-- What `drw x y n` draws in `s`: the framebuffer after its loops, and whether they met a set pixel (R96). -/
def State.drawn (s : State) (x y n : Nibble) : Drawing :=
  Drawing.sprite s.mem (s.effAddr 0) (s.reg x).toNat (s.reg y).toNat n.toNat (s.fb, false)

section
variable {s : State} {x y n : Nibble} {px : Fin 64} {py : Fin 32}

/-- The loops flip the pixels of a list without repetitions, those that a set sprite bit lands on. -/
theorem State.drawn_eq_flipAll (s : State) (x y n : Nibble) :
    ∃ ps, ps.Nodup ∧ (∀ px py, (px, py) ∈ ps ↔ SpriteCovers s x y n px py) ∧ s.drawn x y n = Drawing.flipAll (s.fb, false) ps :=
  ⟨_, nodup_spritePixels _ _ _ _ _ (by omega), fun _ _ => mem_spritePixels, Drawing.sprite_eq ..⟩

theorem State.drawn_pixel_of_covers (h : SpriteCovers s x y n px py) : (s.drawn x y n).1.pixel px py = !s.fb.pixel px py := by
  obtain ⟨ps, hnodup, hmem, hdrawn⟩ := s.drawn_eq_flipAll x y n
  rw [hdrawn, (Drawing.flipAll_spec ps hnodup _).1, if_pos ((hmem px py).2 h)]

theorem State.drawn_pixel_of_not_covers (h : ¬ SpriteCovers s x y n px py) : (s.drawn x y n).1.pixel px py = s.fb.pixel px py := by
  obtain ⟨ps, hnodup, hmem, hdrawn⟩ := s.drawn_eq_flipAll x y n
  rw [hdrawn, (Drawing.flipAll_spec ps hnodup _).1, if_neg (mt (hmem px py).1 h)]

/-- A set pixel is cleared exactly where a set sprite bit lands on it. -/
theorem State.drawn_erases : s.fb.pixel px py = true ∧ (s.drawn x y n).1.pixel px py = false ↔
    SpriteCovers s x y n px py ∧ s.fb.pixel px py = true := by
  by_cases h : SpriteCovers s x y n px py
  · simp [drawn_pixel_of_covers h, h]
  · simp [drawn_pixel_of_not_covers h, h]

/-- The collision flag is that of R96: some pixel went from 1 to 0. -/
theorem State.drawn_collide : (s.drawn x y n).2 = true ↔
    ∃ px py, s.fb.pixel px py = true ∧ (s.drawn x y n).1.pixel px py = false := by
  obtain ⟨ps, hnodup, hmem, hdrawn⟩ := s.drawn_eq_flipAll x y n
  simp only [drawn_erases, ← hmem]
  rw [hdrawn, (Drawing.flipAll_spec ps hnodup _).2, Prod.exists]
  exact or_iff_right Bool.false_ne_true

end

/-! ### DXYN as a relation -/

@[simp] theorem State.setFlag_reg_flag (s : State) (b : Byte) : (s.setFlag b).reg 0xF = b :=
  State.setReg_reg_same ..

/-- The frame of an instruction that writes the framebuffer and VF as a flag. -/
theorem frame_screen_setFlag (s : State) (fb : Framebuffer) (b : Byte) :
    RegsSameBut [0xF] s ({ s.advance with fb := fb }.setFlag b) ∧
    SameBut [.regs, .screen, .pc] s ({ s.advance with fb := fb }.setFlag b) ∧
    ({ s.advance with fb := fb }.setFlag b).pc = s.pc + 2 := by
  refine ⟨fun r hr => ?_, fun p hp => ?_, rfl⟩
  · rw [State.setFlag_reg, if_neg (by simpa using hr)]; rfl
  · cases p <;> simp at hp <;> simp [Part.Same, State.keyPressed]

/-- Some pixel is 1 in `s` and 0 in `t`: the collision of R96. -/
def Erases (s t : State) : Prop := ∃ px py, s.fb.pixel px py = true ∧ t.fb.pixel px py = false

/-- What a draw of the sprite of `drw x y n` makes of the screen and VF (R94, R96). -/
structure Draws (x y n : Nibble) (s t : State) : Prop where
  covered : ∀ px py, SpriteCovers s x y n px py → t.fb.pixel px py = !s.fb.pixel px py
  uncovered : ∀ px py, ¬ SpriteCovers s x y n px py → t.fb.pixel px py = s.fb.pixel px py
  flag_of_erases : Erases s t → t.reg 0xF = 0x01
  flag_of_not_erases : ¬ Erases s t → t.reg 0xF = 0x00

theorem Draws.flag_eq_one {x y n : Nibble} {s t : State} (h : Draws x y n s t) : t.reg 0xF = 0x01 ↔ Erases s t := by
  refine ⟨fun hone => ?_, h.flag_of_erases⟩
  by_contra hnone
  cases hone.symm.trans (h.flag_of_not_erases hnone)

/-- DXYN completes where the bytes of the sprite lie in memory. -/
theorem exec_drw_of_fits {x y n : Nibble} {s : State} (h : n.toNat = 0 ∨ s.i.toNat + n.toNat ≤ 4096) :
    ∃ t, exec (.drw x y n) s = .next t ∧ Draws x y n s t ∧
      RegsSameBut [0xF] s t ∧ SameBut [.regs, .screen, .pc] s t ∧ t.pc = s.pc + 2 := by
  have hrange : rangeFault (s.effAddr 0) n.toNat = none := rangeFault_none.2 h
  refine ⟨{ s.advance with fb := (s.drawn x y n).1 }.setFlag (flagByte (s.drawn x y n).2), ?_,
    ⟨fun _ _ => State.drawn_pixel_of_covers, fun _ _ => State.drawn_pixel_of_not_covers, fun he => ?_, fun he => ?_⟩,
    frame_screen_setFlag s _ _⟩
  · simp only [exec, execDrw, hrange]; rfl
  · rw [State.setFlag_reg_flag, State.drawn_collide.2 he]; rfl
  · rw [State.setFlag_reg_flag, Bool.eq_false_iff.2 (mt State.drawn_collide.1 he)]; rfl

/-- DXYN faults where the bytes of the sprite reach past the end of memory (R47, R124). -/
theorem exec_drw_of_not_fits {x y n : Nibble} {s : State} (h : n.toNat ≠ 0 ∧ 4096 < s.i.toNat + n.toNat) :
    exec (.drw x y n) s = .next (s.raise .outOfBounds (some (encode (.drw x y n))) (BitVec.ofNat 16 (max s.i.toNat 4096))) := by
  have hrange : rangeFault (s.effAddr 0) n.toNat = some (BitVec.ofNat 16 (max s.i.toNat 4096)) := rangeFault_some.2 ⟨h, rfl⟩
  exact exec_of_executeFault_some (by rw [executeFault_drw, hrange]; rfl)

/-- Settles O21, by the two outcomes of DXYN. -/
theorem drawPixelByPixel : Obligations.DrawPixelByPixel := by
  refine fun x y n s => ⟨decodeWord_encode (i := .drw x y n) rfl, fun hfits => ?_, exec_drw_of_not_fits⟩
  obtain ⟨t, hexec, hdraws, hframe⟩ := exec_drw_of_fits (x := x) (y := y) hfits
  refine ⟨t, hexec, hdraws.covered, hdraws.uncovered, hdraws.flag_of_erases, fun hkept => hdraws.flag_of_not_erases ?_, hframe⟩
  rintro ⟨px, py, hset, hcleared⟩
  cases (hkept px py hset).symm.trans hcleared

/-! ### The double-draw law (R97) -/

/-- Where a sprite lands depends on V[X], V[Y], I and the sprite's bytes alone (R94). -/
theorem SpriteCovers.congr {x y n : Nibble} {s t : State} (hx : t.reg x = s.reg x) (hy : t.reg y = s.reg y) (hi : t.i = s.i)
    (hbytes : ∀ r, r < n.toNat → t.mem.read (s.i.toNat + r) = s.mem.read (s.i.toNat + r)) (px : Fin 64) (py : Fin 32) :
    SpriteCovers t x y n px py ↔ SpriteCovers s x y n px py := by
  simp only [SpriteCovers, hx, hy, hi]
  refine exists_congr fun r => exists_congr fun c => and_congr_right fun hr => ?_
  rw [hbytes r hr]

/-- Two draws over the same pixels, the second of the screen that the first left, give back every pixel. -/
theorem Draws.twice {x y n : Nibble} {s t t' u : State} (hfirst : Draws x y n s t) (hfb : t'.fb = t.fb) (hsecond : Draws x y n t' u)
    (hcovers : ∀ px py, SpriteCovers t' x y n px py ↔ SpriteCovers s x y n px py) (px : Fin 64) (py : Fin 32) :
    u.fb.pixel px py = s.fb.pixel px py := by
  by_cases hc : SpriteCovers s x y n px py
  · rw [hsecond.covered px py ((hcovers px py).2 hc), hfb, hfirst.covered px py hc, Bool.not_not]
  · rw [hsecond.uncovered px py (mt (hcovers px py).1 hc), hfb, hfirst.uncovered px py hc]

/-- Settles O22: the second draw covers the pixels of the first (`SpriteCovers.congr`), so what it erases is what the first draw set. -/
theorem doubleDrawRestores : Obligations.DoubleDrawRestores := by
  intro x y n s hfits
  obtain ⟨t, hexec, hfirst, -, hframe, -⟩ := exec_drw_of_fits (x := x) (y := y) hfits
  refine ⟨t, hexec, fun t' hfb hx hy hi' hbytes => ?_⟩
  have hi : t.i = s.i := hframe .index (by decide)
  have hmem : ∀ a, t.mem.read a = s.mem.read a := hframe .memory (by decide)
  simp only [hi, hmem] at hi' hbytes
  obtain ⟨u, hexec', hsecond, -⟩ := exec_drw_of_fits (x := x) (y := y) (s := t') (hi' ▸ hfits)
  have hrestored := hfirst.twice hfb hsecond (SpriteCovers.congr hx hy hi' hbytes)
  refine ⟨u, hexec', hrestored, hsecond.flag_eq_one.trans ?_⟩
  simp only [Erases, hfb, hrestored, and_comm]

end Sys2Proof.Machine
end

section
/-! ## Control-flow instructions (spec/42_control_flow.md R99 to R109) -/

namespace Sys2Proof.Machine

/-! ### Targets as numbers, and the frames of transfers -/

@[simp] theorem zext16_toNat (nnn : Addr12) : (zext16 nnn).toNat = nnn.toNat :=
  BitVec.toNat_setWidth_of_le (by decide)

/-- The sum of BNNN is not reduced (R101). -/
theorem jpV0Target_toNat (nnn : Addr12) (b : Byte) : (zext16 nnn + b.setWidth 16).toNat = nnn.toNat + b.toNat := by
  have hb : (b.setWidth 16).toNat = b.toNat := BitVec.toNat_setWidth_of_le (by decide)
  rw [BitVec.toNat_add, zext16_toNat, hb]
  omega

/-- The frame of an instruction that writes PC alone. -/
theorem frame_pc (s : State) (w : Word) : SameBut [.pc] s { s with pc := w } := by
  intro p hp
  cases p <;> simp at hp <;> simp [Part.Same, State.reg, State.keyPressed]

/-- The frame of an instruction that writes PC and the stack. -/
theorem frame_pc_stack (s : State) (w : Word) (stack : Vector Word 16) (sp : Fin 17) :
    SameBut [.pc, .stack] s { s with pc := w, stack := stack, sp := sp } := by
  intro p hp
  cases p <;> simp at hp <;> simp [Part.Same, State.reg, State.keyPressed]

/-- A skip moves PC by 4 where its condition holds and by 2 where it does not (R104). -/
theorem State.advance_skipIf_pc (s : State) (c : Bool) : (s.advance.skipIf c).pc = if c then s.pc + 4 else s.pc + 2 := by
  rw [State.skipIf_pc, State.advance_pc, BitVec.add_assoc]
  rfl

/-! ### Calls and returns -/

/-- What `call nnn` makes of a state with room on the stack (R26, R102). -/
structure Calls (nnn : Addr12) (s t : State) : Prop where
  pc : t.pc = zext16 nnn
  sp : t.sp.val = s.sp.val + 1
  stack : ∀ k : Fin 16, t.stack.get k = if k.val = s.sp.val then s.pc + 2 else s.stack.get k
  frame : SameBut [.pc, .stack] s t

/-- What `ret` makes of a state with an entry in use (R27, R103). -/
structure Returns (s t : State) : Prop where
  pc : ∀ k : Fin 16, k.val + 1 = s.sp.val → t.pc = s.stack.get k
  sp : t.sp.val + 1 = s.sp.val
  stack : t.stack = s.stack
  frame : SameBut [.pc, .stack] s t

theorem exec_call_of_room (nnn : Addr12) {s : State} (h : s.sp.val < 16) : ∃ t, exec (.call nnn) s = .next t ∧ Calls nnn s t := by
  obtain ⟨u, hpush⟩ := Option.ne_none_iff_exists'.1 (mt (State.push_none (s := s.advance) (w := s.advance.pc)).1 h.ne)
  obtain ⟨-, hsp, hstack, hu⟩ := State.push_some hpush
  refine ⟨u.jump (zext16 nnn), by simp only [exec, execCall, hpush], rfl, hsp, hstack, ?_⟩
  rw [hu]
  exact frame_pc_stack s _ _ _

theorem exec_ret_of_nonempty {s : State} (h : 0 < s.sp.val) : ∃ t, exec .ret s = .next t ∧ Returns s t := by
  obtain ⟨⟨w, u⟩, hpop⟩ := Option.ne_none_iff_exists'.1 (mt (State.pop_none (s := s.advance)).1 h.ne')
  obtain ⟨-, hsp, htop, hu⟩ := State.pop_some hpop
  refine ⟨u.jump w, by simp only [exec, execRet, hpop], htop, hsp, by rw [hu]; rfl, ?_⟩
  rw [hu]
  exact frame_pc_stack s _ _ _

/-- Settles O25: `exec_call_of_room`, and the fault of the table of R124 where 16 entries are in use. -/
theorem callPushesReturnAddress : Obligations.CallPushesReturnAddress := by
  refine fun nnn s => ⟨decodeWord_encode (i := .call nnn) rfl, fun hroom => ?_, fun hfull => ?_⟩
  · obtain ⟨t, hexec, hpc, hsp, hstack, hframe⟩ := exec_call_of_room nnn hroom
    exact ⟨t, hexec, by rw [hpc, zext16_toNat], hsp, hstack, hframe⟩
  · exact exec_of_executeFault_some (if_pos (Fin.ext hfull))

/-- Settles O26: `exec_ret_of_nonempty`, and the fault of the table of R124 where no entry is in use. -/
theorem returnPopsAddress : Obligations.ReturnPopsAddress := by
  refine fun s => ⟨rfl, fun hpos => ?_, fun hempty => ?_⟩
  · obtain ⟨t, hexec, hpc, hsp, hstack, hframe⟩ := exec_ret_of_nonempty hpos
    exact ⟨t, hexec, hsp, hstack, hpc, hframe⟩
  · exact exec_of_executeFault_some (if_pos (Fin.ext hempty))

/-! ### Calls, then as many returns (R109) -/

/-- The calls of a list of targets, then a return for each. -/
def callsThenReturns (targets : List Addr12) : List Instr :=
  targets.map Instr.call ++ List.replicate targets.length Instr.ret

/-- The first call is matched by the last return. -/
theorem callsThenReturns_cons (nnn : Addr12) (targets : List Addr12) :
    callsThenReturns (nnn :: targets) = .call nnn :: (callsThenReturns targets ++ [.ret]) := by
  simp [callsThenReturns, List.replicate_succ']

/-- The stack holds the same entries in use, and all but PC and the stack is the same. -/
structure KeepsEntries (s t : State) : Prop where
  sp : t.sp = s.sp
  entries : ∀ k : Fin 16, k.val < s.sp.val → t.stack.get k = s.stack.get k
  frame : SameBut [.pc, .stack] s t

/-- Around instructions that keep the entries in use, a call and a return keep them too and come back to the return address. -/
theorem Calls.then_returns {nnn : Addr12} {s t u v : State} (hcall : Calls nnn s t) (hkeep : KeepsEntries t u) (hret : Returns u v) :
    KeepsEntries s v ∧ v.pc = s.pc + 2 := by
  have hsp : u.sp.val = s.sp.val + 1 := hkeep.sp ▸ hcall.sp
  have hroom : s.sp.val < 16 := by omega
  refine ⟨⟨Fin.ext (by have := hret.sp; omega), fun k hk => ?_, (hcall.frame.trans hkeep.frame).trans hret.frame⟩, ?_⟩
  · rw [hret.stack, hkeep.entries k (by rw [hcall.sp]; omega), hcall.stack, if_neg hk.ne]
  · rw [hret.pc ⟨s.sp.val, hroom⟩ hsp.symm, hkeep.entries _ (by rw [hcall.sp]; exact Nat.lt_succ_self _), hcall.stack, if_pos rfl]

/-- Calls that fit and as many returns keep the entries in use, whatever the nesting. -/
theorem execAll_callsThenReturns (targets : List Addr12) (s : State) (hfits : s.sp.val + targets.length ≤ 16) :
    ∃ t, execAll (callsThenReturns targets) s = .next t ∧ KeepsEntries s t ∧ (targets ≠ [] → t.pc = s.pc + 2) := by
  induction targets generalizing s with
  | nil => exact ⟨s, rfl, ⟨rfl, fun _ _ => rfl, .refl _ s⟩, fun h => absurd rfl h⟩
  | cons nnn targets ih =>
    rw [List.length_cons] at hfits
    obtain ⟨t, hexec, hcall⟩ := exec_call_of_room nnn (s := s) (by omega)
    obtain ⟨u, hinner, hkeep, -⟩ := ih t (by rw [hcall.sp]; omega)
    obtain ⟨v, hlast, hret⟩ := exec_ret_of_nonempty (s := u) (by rw [hkeep.sp, hcall.sp]; omega)
    obtain ⟨hkeeps, hpc⟩ := hcall.then_returns hkeep hret
    refine ⟨v, ?_, hkeeps, fun _ => hpc⟩
    rw [callsThenReturns_cons]
    simp only [execAll, hexec, execAll_append hinner, hlast]

/-- Settles O27, by induction on the calls: each list of calls and returns stands between one call and one return. -/
theorem callsThenReturnsComeBack : Obligations.CallsThenReturnsComeBack := by
  intro targets s hne hfits
  obtain ⟨t, hexec, hkeep, hpc⟩ := execAll_callsThenReturns targets s hfits
  exact ⟨t, hexec, hpc hne, hkeep.sp, hkeep.frame⟩

/-! ### Bad targets -/

/-- A step at an odd PC takes MisalignedFetch (R51, R99). -/
theorem step_of_pc_odd {s : State} (hrun : s.run = .running) (hodd : s.pc.toNat % 2 = 1) :
    step s = .next (s.raise .misalignedFetch none s.pc) :=
  step_of_error hrun (by rw [State.fetchDecode, State.fetch_odd hodd])

/-- A step at an even PC past the end of memory takes OutOfBounds at PC (R48, R99). -/
theorem step_of_pc_high {s : State} (hrun : s.run = .running) (heven : s.pc.toNat % 2 = 0) (hhigh : 0x1000 ≤ s.pc.toNat) :
    step s = .next (s.raise .outOfBounds none s.pc) := by
  refine step_of_error hrun ?_
  rw [State.fetchDecode, State.fetch_high heven (by omega), max_eq_left hhigh, BitVec.ofNat_toNat, BitVec.setWidth_eq]

/-- Settles O24: each transfer leaves the machine running at its target, where the next step faults. -/
theorem badTargetsFaultAtNextFetch : Obligations.BadTargetsFaultAtNextFetch := by
  refine fun nnn s hrun => ⟨fun hodd => ?_, fun hodd hroom => ?_, fun hodd => ?_, fun heven hhigh => ?_⟩
  · exact ⟨_, rfl, step_of_pc_odd hrun (by simpa using hodd)⟩
  · obtain ⟨t, hexec, hcall⟩ := exec_call_of_room nnn hroom
    have hrun' : t.run = .running := (hcall.frame .run (by decide)).trans hrun
    refine ⟨t, hexec, (step_of_pc_odd hrun' (by simpa [hcall.pc] using hodd)).trans ?_⟩
    rw [State.raise, hcall.pc, zext16]
  · exact ⟨_, rfl, step_of_pc_odd hrun (by rw [State.jump_pc, jpV0Target_toNat]; exact hodd)⟩
  · exact ⟨_, rfl, step_of_pc_high hrun (by rw [State.jump_pc, jpV0Target_toNat]; exact heven)
      (by rw [State.jump_pc, jpV0Target_toNat]; exact hhigh)⟩

/-! ### Jumps, skips and SYS -/

/-- Settles O23: a jump writes PC alone (`frame_pc`). -/
theorem jumpTargets : Obligations.JumpTargets := fun nnn s =>
  ⟨decodeWord_encode (i := .jp nnn) rfl, decodeWord_encode (i := .jpV0 nnn) rfl,
    ⟨_, rfl, zext16_toNat nnn, frame_pc s _⟩, ⟨_, rfl, jpV0Target_toNat nnn _, frame_pc s _⟩⟩

/-- Settles O28, by `State.advance_skipIf_pc` at each comparison. -/
theorem conditionalSkips : Obligations.ConditionalSkips := by
  refine fun x y nn s => ⟨decodeWord_encode (i := .seByte x nn) rfl, decodeWord_encode (i := .sneByte x nn) rfl,
    decodeWord_encode (i := .seReg x y) rfl, decodeWord_encode (i := .sneReg x y) rfl,
    ⟨_, rfl, ?_, frame_skipIf s _⟩, ⟨_, rfl, ?_, frame_skipIf s _⟩,
    ⟨_, rfl, ?_, frame_skipIf s _⟩, ⟨_, rfl, ?_, frame_skipIf s _⟩⟩
  · simp only [State.advance_skipIf_pc, decide_eq_true_eq]
  · simp only [State.advance_skipIf_pc, decide_eq_true_eq, ne_eq, ite_not]
  · simp only [State.advance_skipIf_pc, decide_eq_true_eq]
  · simp only [State.advance_skipIf_pc, decide_eq_true_eq, ne_eq, ite_not]

/-- Settles O29: under Nop, the block's policy, SYS is the advance of PC; under Fault it is a trap with the word it encodes to. -/
theorem sysUnderBothPolicies : Obligations.SysUnderBothPolicies := fun nnn s =>
  ⟨fun hcls hret => decodeWord_encode (i := .sys nnn) (wellFormed_sys.2 ⟨hcls, hret⟩),
    ⟨_, rfl, rfl, frame_pc s _⟩, ⟨_, rfl, rfl, frame_pc s _⟩, rfl⟩

end Sys2Proof.Machine
end

section
/-! ## Timer and keypad instructions (spec/43_timers_keys.md R110 to R116) -/

namespace Sys2Proof.Machine

/-! ### Skips by a key -/

theorem exec_skp_of_digit {x k : Nibble} {s : State} (h : (s.reg x).toNat = k.toNat) :
    exec (.skp x) s = .next (s.advance.skipIf (s.keyPressed k)) := by
  simp only [exec, execSkp, digitOf_some.2 h]

theorem exec_sknp_of_digit {x k : Nibble} {s : State} (h : (s.reg x).toNat = k.toNat) :
    exec (.sknp x) s = .next (s.advance.skipIf (!s.keyPressed k)) := by
  simp only [exec, execSknp, digitOf_some.2 h]

/-- Settles O31: a skip by the key where V[X] numbers one, and the fault of the table of R124 above 15. -/
theorem keySkips : Obligations.KeySkips := by
  refine fun x s => ⟨decodeWord_encode (i := .skp x) rfl, decodeWord_encode (i := .sknp x) rfl, fun k hk => ⟨?_, ?_⟩, fun hhigh => ?_⟩
  · exact ⟨_, exec_skp_of_digit hk, State.advance_skipIf_pc s _, frame_skipIf s _⟩
  · refine ⟨_, exec_sknp_of_digit hk, ?_, frame_skipIf s _⟩
    rw [State.advance_skipIf_pc]
    cases s.keyPressed k <;> rfl
  · exact ⟨exec_of_executeFault_some (if_pos hhigh), exec_of_executeFault_some (if_pos hhigh)⟩

/-! ### The key wait -/

/-- While a key is awaited, a host operation that is neither a load nor a press writes the timers and the keypad alone (R65, R116). -/
theorem frame_hostEvent_of_awaiting {e : HostEvent} {s t : State} {x : Nibble} (hload : ∀ image, e ≠ .load image)
    (hpress : ∀ k, e ≠ .setKey k true) (hrun : s.run = .awaitingKey x) (h : hostEvent e s = .next t) :
    SameBut [.dt, .st, .keys] s t := by
  cases e with
  | step =>
    obtain rfl := Host.Outcome.next.inj ((step_awaiting hrun).symm.trans h)
    exact .refl _ s
  | tick =>
    obtain rfl := Host.Outcome.next.inj h
    obtain ⟨-, -, hframe⟩ := tickCountsDown s
    exact hframe.mono (by simp)
  | setKey k pressed =>
    obtain rfl := Host.Outcome.next.inj h
    have hup : pressed = false := Bool.eq_false_iff.2 fun hdown => hpress k (hdown ▸ rfl)
    obtain ⟨-, -, -, -, hframe⟩ := setKeyWritesAndReleases k pressed s
    exact (hframe (.inr (.inr hup))).mono (by simp)
  | readFramebuffer =>
    obtain rfl := Host.Outcome.next.inj h
    exact .refl _ s
  | load image => exact absurd rfl (hload image)

/-- Settles O33, by induction on the run: the run state is in the frame of each operation, so the wait goes on. -/
theorem keyWaitLasts : Obligations.KeyWaitLasts := by
  rintro es s t x ⟨hload, hpress⟩ hrun h
  refine (hostRun_induct (allowed := fun e => (∀ image, e ≠ .load image) ∧ ∀ k, e ≠ .setKey k true)
    (inv := fun s => s.run = .awaitingKey x) (SameBut.refl _) (fun _ _ _ => SameBut.trans) ?_ es s t ?_ hrun h).1
  · rintro e s t ⟨hload, hpress⟩ hrun h
    have hframe := frame_hostEvent_of_awaiting hload hpress hrun h
    exact ⟨hframe, (hframe .run (by decide)).trans hrun⟩
  · exact fun e he => ⟨fun image hx => hload image (hx ▸ he), fun k hx => hpress k (hx ▸ he)⟩

/-- The frame of FX0A. -/
theorem frame_run (s : State) (r : RunState) : SameBut [.run, .pc] s { s.advance with run := r } := by
  intro p hp
  cases p <;> simp at hp <;> simp [Part.Same, State.reg, State.keyPressed]

/-- While a key is awaited, the press of a key ends the wait unless that key is already pressed (R115, R116). -/
theorem State.setKey_true_run_of_awaiting {s : State} {x : Nibble} (hrun : s.run = .awaitingKey x) (k : Nibble) :
    (s.setKey k true).run = if s.keyPressed k = true then .awaitingKey x else .running := by
  rcases State.setKey_cases s k true with ⟨y, -, hup, -, hset⟩ | ⟨hkeep, hset⟩
  · rw [hset, if_neg (by simp [hup])]
  · have hdown : s.keyPressed k = true := (hkeep x hrun).resolve_right (by decide)
    rw [hset, if_pos hdown, ← hrun]

/-- Settles O32: what steps, ticks and presses do in AwaitingKey, at the state FX0A leaves. -/
theorem keyWaitBegins : Obligations.KeyWaitBegins := by
  intro x s
  obtain ⟨-, hwait, -⟩ := stepResults { s.advance with run := .awaitingKey x }
  obtain ⟨hstep, hresult⟩ := hwait x rfl
  obtain ⟨hdt, hst, -⟩ := tickCountsDown { s.advance with run := .awaitingKey x }
  refine ⟨decodeWord_encode (i := .ldVxK x) rfl, _, rfl, rfl, frame_run s _, rfl, fun hrun => ?_, hstep, hresult, hdt, hst, rfl, rfl,
    State.setKey_true_run_of_awaiting rfl⟩
  rw [hrun]
  rfl

/-! ### The timers -/

/-- The frame of FX15. -/
theorem frame_dt (s : State) (b : Byte) : SameBut [.dt, .pc] s { s.advance with dt := b } := by
  intro p hp
  cases p <;> simp at hp <;> simp [Part.Same, State.reg, State.keyPressed]

/-- The frame of FX18. -/
theorem frame_st (s : State) (b : Byte) : SameBut [.st, .pc] s { s.advance with st := b } := by
  intro p hp
  cases p <;> simp at hp <;> simp [Part.Same, State.reg, State.keyPressed]

/-- The sound is on exactly while ST is not 0 (R44). -/
theorem State.soundOn_iff (s : State) : s.soundOn = true ↔ s.st ≠ 0 :=
  bne_iff_ne

/-- Settles O30: each transfer writes one timer or one register, and the sound follows ST (`State.soundOn_iff`). -/
theorem timerTransfers : Obligations.TimerTransfers := fun x s =>
  ⟨decodeWord_encode (i := .ldVxDt x) rfl, decodeWord_encode (i := .ldDtVx x) rfl, decodeWord_encode (i := .ldStVx x) rfl,
    ⟨_, rfl, State.setReg_reg_same s.advance x s.dt, frame_setReg s x _⟩, ⟨_, rfl, rfl, frame_dt s _, rfl⟩,
    ⟨_, rfl, rfl, State.soundOn_iff _, frame_st s _, rfl⟩⟩

/-- As many ticks as `n` take `n` from ST, down to 0 (R41). -/
theorem hostRun_replicate_tick_st (n : Nat) (s u : State) (h : hostRun (List.replicate n .tick) s = .next u) :
    u.st.toNat = s.st.toNat - n := by
  induction n generalizing s with
  | zero =>
    obtain rfl := Host.Outcome.next.inj h
    rfl
  | succ n ih =>
    obtain ⟨t, htick, hrest⟩ := hostRun_cons_next.1 h
    obtain rfl := Host.Outcome.next.inj htick
    obtain ⟨-, hst, -⟩ := tickCountsDown s
    rw [ih _ hrest, hst, Nat.sub_sub, Nat.add_comm]

/-- Settles O46: after `n` ticks ST is V[X] less `n`, which is 0 once `n` has reached V[X]. -/
theorem soundLastsAsLongAsSet : Obligations.SoundLastsAsLongAsSet := by
  intro x s t u n hexec hticks
  obtain rfl := Host.Outcome.next.inj hexec
  have hst : u.st.toNat = (s.reg x).toNat - n := hostRun_replicate_tick_st n _ u hticks
  calc u.soundOn = true ↔ u.st.toNat ≠ 0 := by rw [State.soundOn_iff, ne_eq, ← BitVec.toNat_inj]; rfl
    _ ↔ n < (s.reg x).toNat := by omega

end Sys2Proof.Machine
end

section
/-! ## Index-register and memory instructions (spec/44_memory_index.md R117 to R122) -/

namespace Sys2Proof.Machine

/-! ### The index register -/

/-- The frame of an instruction that writes I (R21). -/
theorem frame_index (s : State) (w : Word) : SameBut [.index, .pc] s { s.advance with i := w } := by
  intro p hp
  cases p <;> simp at hp <;> simp [Part.Same, State.reg, State.keyPressed]

/-- The sum of FX1E wraps at 65536 (R118). -/
theorem addIndex_toNat (w : Word) (b : Byte) : (w + b.setWidth 16).toNat = (w.toNat + b.toNat) % 65536 := by
  have hb : (b.setWidth 16).toNat = b.toNat := BitVec.toNat_setWidth_of_le (by decide)
  rw [BitVec.toNat_add, hb]

/-- The glyphs stand five bytes apart from 000 on (R55; log 2). -/
theorem glyphAddr_toNat (d : Nibble) : (glyphAddr d).toNat = 0x000 + 5 * d.toNat := by
  rw [glyphAddr, BitVec.toNat_ofNat, Config.fontBase]
  omega

theorem exec_ldFVx_of_digit {x d : Nibble} {s : State} (h : (s.reg x).toNat = d.toNat) :
    exec (.ldFVx x) s = .next { s.advance with i := glyphAddr d } := by
  simp only [exec, execLdFVx, digitOf_some.2 h]

/-- Settles O35: both instructions write I alone (`frame_index`). -/
theorem indexLoadAndAdd : Obligations.IndexLoadAndAdd := fun nnn x s =>
  ⟨decodeWord_encode (i := .ldI nnn) rfl, decodeWord_encode (i := .addIVx x) rfl,
    ⟨_, rfl, zext16_toNat nnn, frame_index s _, rfl⟩, ⟨_, rfl, addIndex_toNat s.i (s.reg x), frame_index s _, rfl⟩⟩

/-- Settles O36: the glyph's address where V[X] is a digit, and the fault of the table of R124 above 15. -/
theorem fontAddress : Obligations.FontAddress := by
  refine fun x s => ⟨decodeWord_encode (i := .ldFVx x) rfl, fun hdigit => ?_, fun hhigh => ?_⟩
  · obtain ⟨d, hd⟩ := exists_digitOf (Nat.not_lt.2 hdigit)
    have hx := digitOf_some.1 hd
    exact ⟨_, exec_ldFVx_of_digit hx, by rw [hx]; exact glyphAddr_toNat d, frame_index s _, rfl⟩
  · exact exec_of_executeFault_some (if_pos hhigh)

/-! ### Stores of consecutive bytes -/

/-- A run of writes leaves its byte k at offset k (R47). -/
theorem Memory.read_writeBytes_offset (m : Memory) (a : Nat) {k : Nat} {bs : List Byte} (h : k < bs.length) :
    (m.writeBytes a bs).read (a + k) = bs[k] := by
  rw [Memory.read_writeBytes, dif_pos (by omega)]
  simp only [Nat.add_sub_cancel_left]

/-- The digits of a byte, written from `a` on: hundreds, tens and ones (R120). -/
theorem Memory.read_writeBytes_bcdDigits (m : Memory) (a : Nat) (b : Byte) :
    ((m.writeBytes a (bcdDigits b)).read a).toNat = b.toNat / 100 ∧
    ((m.writeBytes a (bcdDigits b)).read (a + 1)).toNat = b.toNat / 10 % 10 ∧
    ((m.writeBytes a (bcdDigits b)).read (a + 2)).toNat = b.toNat % 10 := by
  have hread : ∀ k (hk : k < 3), (m.writeBytes a (bcdDigits b)).read (a + k) = (bcdDigits b)[k] :=
    fun _ hk => read_writeBytes_offset m a hk
  refine ⟨(congrArg BitVec.toNat (hread 0 (by decide))).trans ?_, (congrArg BitVec.toNat (hread 1 (by decide))).trans ?_,
    (congrArg BitVec.toNat (hread 2 (by decide))).trans ?_⟩
  · exact Nat.mod_eq_of_lt (b := 256) (by omega)
  · exact Nat.mod_eq_of_lt (b := 256) (by omega)
  · exact Nat.mod_eq_of_lt (b := 256) (by omega)

theorem State.regBytes_length (s : State) (x : Nibble) : (s.regBytes x).length = x.toNat + 1 := by
  rw [State.regBytes, List.length_map, List.length_range]

theorem State.regBytes_getElem (s : State) (x r : Nibble) (h : r.toNat < (s.regBytes x).length) :
    (s.regBytes x)[r.toNat] = s.reg r := by
  simp only [State.regBytes, List.getElem_map, List.getElem_range, regNumber, BitVec.ofNat_toNat, BitVec.setWidth_eq]

/-- FX33 completes where its three bytes lie in memory. -/
theorem exec_ldBVx_of_fits {x : Nibble} {s : State} (h : s.i.toNat + 2 < 4096) :
    exec (.ldBVx x) s = .next { s.advance with mem := s.mem.writeBytes s.i.toNat (bcdDigits (s.reg x)) } := by
  have hrange : rangeFault (s.effAddr 0) 3 = none := rangeFault_none.2 (.inr h)
  simp only [exec, execLdBVx, hrange]
  rfl

/-- FX55 completes where its bytes lie in memory. -/
theorem exec_storeRegs_of_fits {x : Nibble} {s : State} (h : s.i.toNat + x.toNat < 4096) :
    exec (.storeRegs x) s = .next { s.advance with mem := s.mem.writeBytes s.i.toNat (s.regBytes x) } := by
  have hrange : rangeFault (s.effAddr 0) (x.toNat + 1) = none := rangeFault_none.2 (.inr h)
  simp only [exec, execStoreRegs, hrange]
  rfl

/-- Settles O37: the three digits lie where the run of writes put them, and the fault of the table of R124 where it does not fit. -/
theorem bcdStore : Obligations.BcdStore := by
  refine fun x s => ⟨decodeWord_encode (i := .ldBVx x) rfl, fun hfits => ?_, fun hhigh => ?_⟩
  · obtain ⟨hhundreds, htens, hones⟩ := s.mem.read_writeBytes_bcdDigits s.i.toNat (s.reg x)
    exact ⟨_, exec_ldBVx_of_fits hfits, hhundreds, htens, hones, outside_writeBytes s _ (bcdDigits (s.reg x)), frame_mem s _, rfl⟩
  · exact exec_of_executeFault_some (if_pos hhigh)

/-- Settles O38: byte r of the run of writes is V[r], and the fault of the table of R124 where the run does not fit. -/
theorem registerStore : Obligations.RegisterStore := by
  refine fun x s => ⟨decodeWord_encode (i := .storeRegs x) rfl, fun hfits => ?_, fun hhigh => ?_⟩
  · refine ⟨_, exec_storeRegs_of_fits hfits, fun r hr => ?_, s.regBytes_length x ▸ outside_writeBytes s _ _, frame_mem s _, rfl⟩
    have hlen : r.toNat < (s.regBytes x).length := by rw [State.regBytes_length]; omega
    exact (Memory.read_writeBytes_offset s.mem s.i.toNat hlen).trans (s.regBytes_getElem x r hlen)
  · exact exec_of_executeFault_some (if_pos hhigh)

/-! ### Loads of consecutive bytes -/

/-- FX65 completes where its bytes lie in memory. -/
theorem exec_loadRegs_of_fits {x : Nibble} {s : State} (h : s.i.toNat + x.toNat < 4096) :
    exec (.loadRegs x) s = .next (s.advance.loadRegsFrom s.i.toNat (x.toNat + 1)) := by
  have hrange : rangeFault (s.effAddr 0) (x.toNat + 1) = none := rangeFault_none.2 (.inr h)
  simp only [exec, execLoadRegs, hrange]
  rfl

/-- Settles O39: what the loop reads (`State.loadRegsFrom_spec`), and the fault of the table of R124 where it does not fit. -/
theorem registerLoad : Obligations.RegisterLoad := by
  refine fun x s => ⟨decodeWord_encode (i := .loadRegs x) rfl, fun hfits => ?_, fun hhigh => ?_⟩
  · obtain ⟨hreg, hrest⟩ := s.advance.loadRegsFrom_spec s.i.toNat (x.toNat + 1) (by omega)
    refine ⟨_, exec_loadRegs_of_fits hfits, fun r => ?_, ?_, ?_⟩
    · simpa only [Nat.lt_succ_iff, State.advance_mem, State.advance_reg] using hreg r
    · rw [hrest]
      exact sameBut_regs_pc s _ _
    · rw [hrest]
      rfl
  · exact exec_of_executeFault_some (if_pos hhigh)

/-- Settles O40: FX65 reads the bytes that FX55 stored (O38, O39), at the I and in the memory that the store left. -/
theorem storeThenLoadRestoresRegisters : Obligations.StoreThenLoadRestoresRegisters := by
  intro x s hfits
  obtain ⟨-, hstore, -⟩ := registerStore x s
  obtain ⟨t, hexec, hbytes, -, hframe, -⟩ := hstore hfits
  refine ⟨t, hexec, fun t' hi hmem => ?_⟩
  have hi' : t'.i = s.i := hi.trans (hframe .index (by decide))
  obtain ⟨-, hload, -⟩ := registerLoad x t'
  obtain ⟨u, hexec', hregs, -⟩ := hload (hi' ▸ hfits)
  refine ⟨u, hexec', fun r hr => ?_⟩
  rw [hregs, if_pos hr, hi', hmem, hbytes r hr]

end Sys2Proof.Machine
end

section
/-! ## Exceptions and runs of host operations (spec/60_exceptions.md R125 to R128, R135, R143) -/

namespace Sys2Proof.Machine

/-! ### The faults of a step -/

/-- Settles O7: the fetch faults at an odd or a high PC, and else gives the word at PC (`State.fetch_ok`), which is the word `w`. -/
theorem stepReportsFirstFault : Obligations.StepReportsFirstFault := by
  intro s hrun
  split
  case isTrue hodd => exact step_of_pc_odd hrun hodd
  case isFalse hodd =>
    have heven : s.pc.toNat % 2 = 0 := Nat.mod_two_ne_one.1 hodd
    split
    case isTrue hhigh => exact step_of_error hrun (by rw [State.fetchDecode, State.fetch_high heven hhigh]; rfl)
    case isFalse hin =>
      intro w hw
      obtain rfl : s.fetchWord = w := BitVec.eq_of_toNat_eq (s.fetchWord_toNat.trans hw.symm)
      have hfetch := State.fetch_ok heven (Nat.not_le.1 hin)
      split
      next e hd => exact step_of_error hrun (by simp only [State.fetchDecode, hfetch, hd]; rfl)
      next i hd => exact step_of_ok hrun (by simp only [State.fetchDecode, hfetch, hd])

/-- Settles O9, by what a step of a running machine can do: a completed instruction does not halt, and a fault writes the run state alone. -/
theorem faultsArePrecise : Obligations.FaultsArePrecise := by
  intro s t f hrun hstep hf
  rcases step_cases hrun with ⟨kind, word, detail, hnext, -⟩ | ⟨i, u, -, hnext, hdone⟩
  · obtain rfl := Host.Outcome.next.inj (hnext.symm.trans hstep)
    obtain rfl := RunState.halted.inj hf
    exact ⟨rfl, rfl, stepResult_of_next hnext⟩
  · obtain rfl := Host.Outcome.next.inj (hnext.symm.trans hstep)
    rcases hdone.not_halted hrun with ht | ⟨x, ht⟩ <;> cases ht.symm.trans hf

/-! ### Runs complete -/

/-- A step answers a next state, whatever the run state (R40). -/
theorem exists_step (s : State) : ∃ t, step s = .next t := by
  by_cases hrun : s.run = .running
  · obtain ⟨hrunning, -⟩ := stepResults s
    obtain ⟨t, ht, -⟩ := hrunning hrun
    exact ⟨t, ht⟩
  · exact ⟨s, step_of_not_running hrun⟩

theorem exists_hostEvent (e : HostEvent) (s : State) : ∃ t, hostEvent e s = .next t := by
  cases e with
  | step => exact exists_step s
  | _ => exact ⟨_, rfl⟩

/-- Settles O52, by induction on the run: every host operation answers a next state. -/
theorem hostRunsComplete : Obligations.HostRunsComplete := by
  intro es
  induction es with
  | nil => exact fun s => ⟨s, rfl⟩
  | cons e es ih =>
    intro s
    obtain ⟨u, hu⟩ := exists_hostEvent e s
    obtain ⟨t, ht⟩ := ih u
    exact ⟨t, hostRun_cons_next.2 ⟨u, hu, ht⟩⟩

/-! ### A halted machine -/

/-- A host operation other than a load writes the timers and the keypad of a halted machine alone (R127). -/
theorem frame_hostEvent_of_halted {e : HostEvent} {s t : State} {f : FaultRecord} (hload : ∀ image, e ≠ .load image)
    (hrun : s.run = .halted f) (h : hostEvent e s = .next t) : SameBut [.dt, .st, .keys] s t := by
  cases e with
  | step =>
    obtain rfl := Host.Outcome.next.inj ((step_halted hrun).symm.trans h)
    exact .refl _ s
  | tick =>
    obtain rfl := Host.Outcome.next.inj h
    obtain ⟨-, -, hframe⟩ := tickCountsDown s
    exact hframe.mono (by simp)
  | setKey k pressed =>
    obtain rfl := Host.Outcome.next.inj h
    obtain ⟨-, -, -, -, hframe⟩ := setKeyWritesAndReleases k pressed s
    exact (hframe (.inl fun x => by simp [hrun])).mono (by simp)
  | readFramebuffer =>
    obtain rfl := Host.Outcome.next.inj h
    exact .refl _ s
  | load image => exact absurd rfl (hload image)

/-- Settles O51: what each operation does to a halted machine, and, by induction on the run (`hostRun_induct`), the run state is in the
frame of each of them. -/
theorem haltLastsUntilLoad : Obligations.HaltLastsUntilLoad := by
  refine ⟨fun s f hrun => ?_, fun es s t f hload hrun h => ?_⟩
  · obtain ⟨-, -, hhalted⟩ := stepResults s
    obtain ⟨hstep, hresult⟩ := hhalted f hrun
    obtain ⟨hdt, hst, -⟩ := tickCountsDown s
    refine ⟨hstep, hresult, hdt, hst, fun k pressed => ?_, rfl, ?_, fun image hfits => ⟨_, s.load_ok hfits, rfl⟩⟩
    · obtain ⟨hkey, -, -, -, hframe⟩ := setKeyWritesAndReleases k pressed s
      exact ⟨hkey, hframe (.inl fun x => by simp [hrun])⟩
    · simp only [State.status, State.faultRecord, hrun]
  · refine (hostRun_induct (allowed := fun e => ∀ image, e ≠ .load image) (inv := fun s => s.run = .halted f)
      (SameBut.refl _) (fun _ _ _ => SameBut.trans) (fun e s t hload hrun h => ?_) es s t (fun e he image hx => hload image (hx ▸ he)) hrun h).symm
    have hframe := frame_hostEvent_of_halted hload hrun h
    exact ⟨hframe, (hframe .run (by decide)).trans hrun⟩

/-! ### What an instruction writes of the timers and memory -/

/-- What `i` may write of the timers and of memory: FX15 alone writes DT, FX18 alone ST (R28, R29), and memory changes by one run of bytes below 4096
at most (R47, R120, R121). -/
structure TimerAndMemoryWrites (i : Instr) (s t : State) : Prop where
  dt : (∀ x, i ≠ .ldDtVx x) → t.dt = s.dt
  st : (∀ x, i ≠ .ldStVx x) → t.st = s.st
  mem : t.mem = s.mem ∨ ∃ a bs, a + bs.length ≤ Config.memSize ∧ t.mem = s.mem.writeBytes a bs

theorem TimerAndMemoryWrites.of_same {i : Instr} {s t : State} (hdt : t.dt = s.dt) (hst : t.st = s.st) (hmem : t.mem = s.mem) :
    TimerAndMemoryWrites i s t :=
  ⟨fun _ => hdt, fun _ => hst, .inl hmem⟩

theorem TimerAndMemoryWrites.of_next {i : Instr} {s t u : State} (h : (.next u : Host.Outcome State Fault Refusal) = .next t)
    (hu : TimerAndMemoryWrites i s u) : TimerAndMemoryWrites i s t :=
  Host.Outcome.next.inj h ▸ hu

theorem TimerAndMemoryWrites.of_trap {i : Instr} {s t : State} {kind : FaultKind} {detail : Word} (h : s.trap i kind detail = .next t) :
    TimerAndMemoryWrites i s t :=
  .of_next h (.of_same rfl rfl rfl)

theorem TimerAndMemoryWrites.skipIf (i : Instr) (s : State) (c : Bool) : TimerAndMemoryWrites i s (s.advance.skipIf c) :=
  .of_same (by simp) (by simp) (by simp)

theorem TimerAndMemoryWrites.writeBytes (i : Instr) (s : State) {a : Nat} {bs : List Byte} (h : a + bs.length ≤ Config.memSize) :
    TimerAndMemoryWrites i s { s.advance with mem := s.mem.writeBytes a bs } :=
  ⟨fun _ => rfl, fun _ => rfl, .inr ⟨a, bs, h, rfl⟩⟩

theorem timerAndMemoryWrites_of_exec {i : Instr} {s t : State} (h : exec i s = .next t) : TimerAndMemoryWrites i s t := by
  cases i with
  | ret =>
    simp only [exec, execRet] at h
    split at h
    next w u hpop =>
      obtain ⟨-, -, -, hu⟩ := State.pop_some hpop
      exact .of_next h (by rw [hu]; exact .of_same rfl rfl rfl)
    next => exact .of_trap h
  | call nnn =>
    simp only [exec, execCall] at h
    split at h
    next u hpush =>
      obtain ⟨-, -, -, hu⟩ := State.push_some hpush
      exact .of_next h (by rw [hu]; exact .of_same rfl rfl rfl)
    next => exact .of_trap h
  | drw x y n =>
    simp only [exec, execDrw] at h
    split at h
    next => exact .of_trap h
    next => exact .of_next h (.of_same rfl rfl rfl)
  | ldBVx x =>
    simp only [exec, execLdBVx] at h
    split at h
    next => exact .of_trap h
    next hrange => exact .of_next h (.writeBytes _ s ((rangeFault_none.1 hrange).resolve_left (by decide)))
  | storeRegs x =>
    simp only [exec, execStoreRegs] at h
    split at h
    next => exact .of_trap h
    next hrange =>
      have hfits := (rangeFault_none.1 hrange).resolve_left (Nat.succ_ne_zero _)
      exact .of_next h (.writeBytes _ s (s.regBytes_length x ▸ hfits))
  | loadRegs x =>
    simp only [exec, execLoadRegs] at h
    split at h
    next => exact .of_trap h
    next => exact .of_next h (by rw [State.loadRegsFrom_frame]; exact .of_same rfl rfl rfl)
  | ldFVx x =>
    simp only [exec, execLdFVx] at h
    split at h
    next => exact .of_next h (.of_same rfl rfl rfl)
    next => exact .of_trap h
  | skp x | sknp x =>
    simp only [exec, execSkp, execSknp] at h
    split at h
    next => exact .of_next h (.skipIf ..)
    next => exact .of_trap h
  | seByte | sneByte | seReg | sneReg => exact .of_next h (.skipIf ..)
  | ldDtVx x => exact .of_next h ⟨fun hdt => absurd rfl (hdt x), fun _ => rfl, .inl rfl⟩
  | ldStVx x => exact .of_next h ⟨fun _ => rfl, fun hst => absurd rfl (hst x), .inl rfl⟩
  | _ => exact .of_next h (.of_same rfl rfl rfl)

/-- A step executes an instruction, or it writes neither the timers nor memory: a fault of the fetch, or a step that is not of a running machine. -/
theorem timerAndMemoryWrites_of_step {s t : State} (h : step s = .next t) :
    (t.dt = s.dt ∧ t.st = s.st ∧ t.mem = s.mem) ∨ ∃ i, s.Executes i ∧ TimerAndMemoryWrites i s t := by
  by_cases hrun : s.run = .running
  · cases hfd : s.fetchDecode with
    | error u =>
      obtain ⟨kind, word, detail, rfl⟩ := State.fetchDecode_error hfd
      obtain rfl := Host.Outcome.next.inj ((step_of_error hrun hfd).symm.trans h)
      exact .inl ⟨rfl, rfl, rfl⟩
    | ok i => exact .inr ⟨i, ⟨hrun, hfd⟩, timerAndMemoryWrites_of_exec ((step_of_ok hrun hfd).symm.trans h)⟩
  · obtain rfl := Host.Outcome.next.inj ((step_of_not_running hrun).symm.trans h)
    exact .inl ⟨rfl, rfl, rfl⟩

/-! ### Timers go down by the ticks -/

theorem tickCount_cons (e : HostEvent) (es : List HostEvent) : tickCount (e :: es) = tickCount [e] + tickCount es :=
  List.count_append (l₁ := [e])

/-- A step that executes neither FX15 nor FX18 leaves both timers (R135). -/
theorem step_timers {s t : State} (hexec : ∀ x, ¬ s.Executes (.ldDtVx x) ∧ ¬ s.Executes (.ldStVx x)) (h : step s = .next t) :
    t.dt = s.dt ∧ t.st = s.st := by
  rcases timerAndMemoryWrites_of_step h with ⟨hdt, hst, -⟩ | ⟨i, hi, hwrites⟩
  · exact ⟨hdt, hst⟩
  · exact ⟨hwrites.dt fun x hx => (hexec x).1 (hx ▸ hi), hwrites.st fun x hx => (hexec x).2 (hx ▸ hi)⟩

/-- A host operation that is no load and executes neither FX15 nor FX18 takes 1 from each timer if it is a tick, and nothing otherwise (R135). -/
theorem hostEvent_timers {e : HostEvent} {s t : State} (hload : ∀ image, e ≠ .load image)
    (hstep : e = .step → ∀ x, ¬ s.Executes (.ldDtVx x) ∧ ¬ s.Executes (.ldStVx x)) (h : hostEvent e s = .next t) :
    t.dt.toNat = s.dt.toNat - tickCount [e] ∧ t.st.toNat = s.st.toNat - tickCount [e] := by
  cases e with
  | step =>
    obtain ⟨hdt, hst⟩ := step_timers (hstep rfl) h
    exact ⟨congrArg BitVec.toNat hdt, congrArg BitVec.toNat hst⟩
  | tick =>
    obtain rfl := Host.Outcome.next.inj h
    exact ⟨timerDown_toNat s.dt, timerDown_toNat s.st⟩
  | setKey k pressed =>
    obtain rfl := Host.Outcome.next.inj h
    obtain ⟨-, -, hframe, -⟩ := setKeyWritesAndReleases k pressed s
    exact ⟨congrArg BitVec.toNat (hframe .dt (by decide)), congrArg BitVec.toNat (hframe .st (by decide))⟩
  | readFramebuffer =>
    obtain rfl := Host.Outcome.next.inj h
    exact ⟨rfl, rfl⟩
  | load image => exact absurd rfl (hload image)

/-- Settles O45, by induction on the run: each operation takes its own tick, or none, from the timers (`hostEvent_timers`). -/
theorem timersCountTicksNotSteps : Obligations.TimersCountTicksNotSteps := by
  intro es
  induction es with
  | nil =>
    intro s t _ h
    obtain rfl := Host.Outcome.next.inj h
    exact ⟨rfl, rfl⟩
  | cons e es ih =>
    rintro s t ⟨hload, hstep, hrest⟩ h
    obtain ⟨u, hu, h⟩ := hostRun_cons_next.1 h
    obtain ⟨hdt, hst⟩ := hostEvent_timers hload hstep hu
    obtain ⟨hdt', hst'⟩ := ih u t (hrest u hu) h
    rw [hdt', hst', hdt, hst, tickCount_cons e es, Nat.sub_sub, Nat.sub_sub]
    exact ⟨rfl, rfl⟩

/-! ### The invariant over runs -/

/-- A step writes at most one run of bytes below 4096, which keeps the canonical form (log 8). -/
theorem step_memoryCanonical {s t : State} (hs : MemoryCanonical s) (h : step s = .next t) : MemoryCanonical t := by
  have hmem : t.mem = s.mem ∨ ∃ a bs, a + bs.length ≤ Config.memSize ∧ t.mem = s.mem.writeBytes a bs := by
    rcases timerAndMemoryWrites_of_step h with ⟨-, -, hmem⟩ | ⟨i, -, hwrites⟩
    · exact .inl hmem
    · exact hwrites.mem
  rcases hmem with hmem | ⟨a, bs, hfits, hmem⟩
  · exact (congrArg Memory.wf hmem).mpr hs
  · exact (congrArg Memory.wf hmem).mpr (Memory.writeBytes_wf hs hfits)

theorem step_inv {s t : State} (hs : Inv s) (h : step s = .next t) : Inv t := by
  obtain ⟨hmem, hrange, hfits⟩ := hs
  exact ⟨step_memoryCanonical hmem h, stepKeepsPcAndStackInRange s t hrange h, stepKeepsFaultRecordFitting s t hfits h⟩

/-- The timers are no part of the invariant, and a record fits whatever they are. -/
theorem State.tick_inv {s : State} (hs : Inv s) : Inv s.tick := by
  obtain ⟨hmem, hrange, hfits⟩ := hs
  exact ⟨hmem, hrange, fun f hf => (hfits f hf).congr rfl rfl rfl rfl rfl⟩

/-- A key event that releases a wait leaves the machine running, with no record; any other writes the keypad alone (R42, R116). -/
theorem State.setKey_inv {s : State} (k : Nibble) (pressed : Bool) (hs : Inv s) : Inv (s.setKey k pressed) := by
  obtain ⟨hmem, hrange, hfits⟩ := hs
  rcases State.setKey_cases s k pressed with ⟨x, -, -, -, hset⟩ | ⟨-, hset⟩
  · rw [hset]
    exact ⟨hmem, hrange, fun _ hf => nomatch hf⟩
  · rw [hset]
    exact ⟨hmem, hrange, fun f hf => (hfits f hf).congr rfl rfl rfl rfl rfl⟩

/-- A load gives the state at reset with an image that lies below 4096, or changes nothing (R146, R148). -/
theorem State.load_inv {s : State} (image : List Byte) (hs : Inv s) : Inv (s.load image).2 := by
  by_cases hfits : image.length ≤ 3584
  · obtain ⟨-, hrange, -⟩ := invariantAtReset
    rw [s.load_ok hfits]
    exact ⟨Memory.writeBytes_wf Memory.nil_wf (Nat.add_le_add_left hfits 0x200), hrange, fun _ hf => nomatch hf⟩
  · rw [State.load, if_pos (Nat.not_le.1 hfits)]
    exact hs

theorem hostEvent_inv {e : HostEvent} {s t : State} (hs : Inv s) (h : hostEvent e s = .next t) : Inv t := by
  cases e with
  | step => exact step_inv hs h
  | tick =>
    obtain rfl := Host.Outcome.next.inj h
    exact State.tick_inv hs
  | setKey k pressed =>
    obtain rfl := Host.Outcome.next.inj h
    exact State.setKey_inv k pressed hs
  | readFramebuffer =>
    obtain rfl := Host.Outcome.next.inj h
    exact hs
  | load image =>
    obtain rfl := Host.Outcome.next.inj h
    exact State.load_inv image hs

/-- Settles O57, by induction on the run (`hostRun_induct`): each host operation keeps the invariant. -/
theorem hostRunsKeepInvariant : Obligations.HostRunsKeepInvariant := fun es s t hs h =>
  (hostRun_induct (rel := fun _ _ => True) (allowed := fun _ => True) (inv := Inv) (fun _ => trivial) (fun _ _ _ _ _ => trivial)
    (fun _ _ _ _ hs h => ⟨trivial, hostEvent_inv hs h⟩) es s t (fun _ _ => trivial) hs h).2

end Sys2Proof.Machine
end

section
/-! ## Reset, load and the walk from power-on (spec/70_reset_and_hazards.md R146 to R150) -/

namespace Sys2Proof.Machine

/-! ### Load -/

/-- A run of writes leaves the bytes after its last one. -/
theorem Memory.read_writeBytes_above {m : Memory} {a c : Nat} {bs : List Byte} (h : a + bs.length ≤ c) :
    (m.writeBytes a bs).read c = m.read c := by
  rw [Memory.read_writeBytes, dif_neg (by omega)]

/-- An image longer than 3584 bytes is refused (R148). -/
theorem State.load_outOfBounds (s : State) {image : List Byte} (h : 3584 < image.length) : s.load image = (.outOfBounds, s) :=
  if_pos h

/-- A load that resets the machine leaves the reset values but for memory and the count of draws (R147; log 3). -/
theorem frame_resetOf_mem (s : State) (m : Memory) : SameBut [.memory, .draws] State.reset { s.resetOf with mem := m } := by
  intro p hp
  cases p <;> simp at hp <;> simp [Part.Same, State.resetOf, State.reg, State.keyPressed]

/-- Settles O49: a fitting image is one run of writes from 0x200 on over the reset contents, which are 0 from 0x50 on. -/
theorem loadInstallsOrRefuses : Obligations.LoadInstallsOrRefuses := by
  refine fun image s => ⟨fun hfits => ?_, s.load_outOfBounds⟩
  refine ⟨_, s.load_ok hfits, frame_resetOf_mem s _, fun k hk => Memory.read_writeBytes_offset _ _ hk, fun a ha => ?_,
    fun a ha => Memory.read_writeBytes_below image ha⟩
  calc (Memory.writeBytes [] 0x200 image).read a = Memory.initial a := Memory.read_writeBytes_above ha
    _ = 0 := Memory.initial_high (by omega)

/-! ### Reset -/

theorem State.resetOf_reg (s : State) (r : Nibble) : s.resetOf.reg r = 0 :=
  Vector.getElem_replicate _

theorem State.resetOf_keyPressed (s : State) (k : Nibble) : s.resetOf.keyPressed k = false :=
  Vector.getElem_replicate _

theorem State.resetOf_stack_get (s : State) (k : Fin 16) : s.resetOf.stack.get k = 0 :=
  Vector.getElem_replicate _

/-- Settles O47: the arrays are constant, the framebuffer is the cleared one, and memory at reset lists no byte. -/
theorem resetValues : Obligations.ResetValues := by
  refine ⟨rfl, fun s => ⟨s.resetOf_reg, rfl, rfl, rfl, s.resetOf_stack_get, rfl, rfl, Framebuffer.pixel_clear, s.resetOf_keyPressed,
    rfl, rfl, fun a ha => Memory.initial_high ha, ?_⟩⟩
  show (List.range 80).map Memory.initial = Config.fontData
  decide

/-! ### The walk through zeros -/

/-- The power-on state with PC `n` words further on (R149). -/
def State.walked (n : Nat) : State := { State.reset with pc := BitVec.ofNat 16 (0x200 + 2 * n) }

theorem State.walked_pc_toNat {n : Nat} (h : n ≤ 1792) : (State.walked n).pc.toNat = 0x200 + 2 * n :=
  Nat.mod_eq_of_lt (b := 65536) (by omega)

/-- Every word from 0x200 up to 0x1000 is 0000 at power-on, which is SYS 000 (R54, R72). -/
theorem State.fetchDecode_walked {n : Nat} (h : n < 1792) : (State.walked n).fetchDecode = .ok (.sys 0x000) := by
  have hpc := State.walked_pc_toNat h.le
  have hzero : ∀ a, 80 ≤ a → (State.walked n).mem.read a = 0 := fun a ha => Memory.initial_high ha
  have hword : (State.walked n).fetchWord = 0 := by
    rw [State.fetchWord, hzero _ (by omega), hzero _ (by omega)]
    rfl
  rw [State.fetchDecode, State.fetch_ok (by omega) (by omega), hword]
  rfl

/-- Under SYS_POLICY = Nop, a step over a zero word moves PC to the next (R108). -/
theorem step_walked {n : Nat} (h : n < 1792) : step (State.walked n) = .next (State.walked (n + 1)) := by
  have hpc : (State.walked n).advance = State.walked (n + 1) := by
    simp only [State.advance, State.walked, Nat.mul_add, ← Nat.add_assoc, BitVec.ofNat_add]
    rfl
  rw [step_of_ok rfl (State.fetchDecode_walked h), ← hpc]
  rfl

theorem hostRun_steps_reset {n : Nat} (h : n ≤ 1792) : hostRun (List.replicate n .step) State.reset = .next (State.walked n) := by
  induction n with
  | zero => rfl
  | succ n ih =>
    rw [List.replicate_succ', hostRun_append (ih (by omega))]
    exact hostRun_cons_next.2 ⟨_, step_walked h, rfl⟩

/-- Settles O50: 1792 zero words are walked one by one (`step_walked`), and the fetch at 0x1000 is past the end of memory. -/
theorem powerOnWalksZeros : Obligations.PowerOnWalksZeros := by
  refine ⟨rfl, fun n hn => hostRun_steps_reset hn, ?_, State.fetchDecode_walked (n := 0) (by decide), rfl⟩
  have hpc := State.walked_pc_toNat (le_refl 1792)
  have hlast : step (State.walked 1792) = .next ((State.walked 1792).raise .outOfBounds none (State.walked 1792).pc) :=
    step_of_pc_high rfl (by omega) (by omega)
  rw [List.replicate_succ' (n := 1792), hostRun_append (hostRun_steps_reset (le_refl 1792))]
  exact hostRun_cons_next.2 ⟨_, hlast, rfl⟩

end Sys2Proof.Machine
end

section
/-! ## Decoding and encoding (spec/30_encoding.md sections 2 to 4) -/

namespace Sys2Proof

/-! ### The round trip -/

/-- Settles O1, by computation: each word is a literal. -/
theorem sampleWordsDecode : Obligations.SampleWordsDecode :=
  ⟨rfl, rfl, rfl, rfl, rfl, rfl, rfl, rfl, rfl⟩

/-- Settles O2: the decoder inverts the encoder on words (`decodeWord_encode`), and the bytes of a word decode as the word does. -/
theorem decodeOfEncode : Obligations.DecodeOfEncode := by
  refine fun i hi => ⟨decodeWord_encode hi, fun rest => ?_⟩
  rw [encodeBytes, List.cons_append, List.cons_append, List.nil_append, decode_bytes, decodeWord_encode hi]
  rfl

/-- The decoder reads no ill-formed instruction: the words of the two SYS operands that are not well-formed are CLS and RET (R72). -/
theorem wellFormed_of_decodeWord {w : Word} {i : Instr} (h : decodeWord w = .ok i) : wellFormed i = true := by
  obtain rfl := encode_of_decodeWord h
  rcases wellFormed_or_sys i with hi | rfl | rfl
  · exact hi
  · cases (rfl : decodeWord (encode (.sys 0x0E0)) = .ok .cls).symm.trans h
  · cases (rfl : decodeWord (encode (.sys 0x0EE)) = .ok .ret).symm.trans h

/-- Settles O3: what the decoder reads is well-formed, and the encoder gives back the word (`encode_of_decodeWord`). -/
theorem encodeOfDecode : Obligations.EncodeOfDecode :=
  fun _ _ h => ⟨wellFormed_of_decodeWord h, encode_of_decodeWord h⟩

/-! ### The illegal words -/

section
variable {w : Word}

theorem fieldOp_eq_iff {op : Nibble} : fieldOp w = op ↔ w.toNat / 4096 = op.toNat := by
  rw [← BitVec.toNat_inj, fieldOp_toNat]

theorem fieldN_eq_iff {n : Nibble} : fieldN w = n ↔ w.toNat % 16 = n.toNat := by
  rw [← BitVec.toNat_inj, fieldN_toNat]

theorem fieldNN_eq_iff {nn : Byte} : fieldNN w = nn ↔ w.toNat % 256 = nn.toNat := by
  rw [← BitVec.toNat_inj, fieldNN_toNat]

/-- A row of a decoder's table of `if`s rejects no word: one that it does not match is left to the rows below. -/
theorem exists_error_ite {c : Prop} [Decidable c] {j : Instr} {below : Except DecodeError Instr} :
    (∃ e, (if c then .ok j else below) = .error e) ↔ ¬ c ∧ ∃ e, below = .error e := by
  split <;> simp [*]

/-- 8XYN is illegal for N in 8 to D, and F (R75, R78). -/
theorem decodeOp8_error_iff :
    (∃ e, decodeOp8 w = .error e) ↔ w.toNat % 16 ∈ [0x8, 0x9, 0xA, 0xB, 0xC, 0xD, 0xF] := by
  simp only [decodeOp8, exists_error_ite, fieldN_eq_iff, Except.error.injEq, exists_eq', and_true, BitVec.ofNat_eq_ofNat,
    BitVec.toNat_ofNat, List.mem_cons, List.not_mem_nil, or_false]
  omega

/-- EXNN is illegal for NN other than 9E and A1 (R76, R78). -/
theorem decodeOpE_error_iff : (∃ e, decodeOpE w = .error e) ↔ w.toNat % 256 ∉ [0x9E, 0xA1] := by
  simp [decodeOpE, exists_error_ite, fieldNN_eq_iff]

/-- FXNN is illegal for NN none of the nine of R77 (R78). -/
theorem decodeOpF_error_iff : (∃ e, decodeOpF w = .error e) ↔
    w.toNat % 256 ∉ [0x07, 0x0A, 0x15, 0x18, 0x1E, 0x29, 0x33, 0x55, 0x65] := by
  simp [decodeOpF, exists_error_ite, fieldNN_eq_iff]

end

/-- Settles O5, by the opcode digit: 5, 8, 9, E and F have illegal words, each its own, and no other digit has one. -/
theorem illegalWordsAreThese : Obligations.IllegalWordsAreThese := by
  intro w
  rcases nibble_cases (fieldOp w) with
    hop | hop | hop | hop | hop | hop | hop | hop | hop | hop | hop | hop | hop | hop | hop | hop <;>
    simp [decodeWord, hop, fieldOp_eq_iff.1 hop, exists_error_ite, fieldN_eq_iff, decodeOp8_error_iff, decodeOpE_error_iff,
      decodeOpF_error_iff]

end Sys2Proof
end

section
/-! ## The execution cycle: fetch, decode and execute (spec/30_encoding.md section 1, spec/60_exceptions.md section 1) -/

namespace Sys2Proof.Machine

/-! ### The instruction that the bytes at PC decode to -/

/-- Two bytes decode to the instruction of their word. -/
theorem decodeWord_of_decode {hi lo : Byte} {i : Instr} {rest : List Byte} (h : decode [hi, lo] = .ok (i, rest)) :
    decodeWord (wordOfBytes hi lo) = .ok i := by
  simp only [decode] at h
  cases hd : decodeWord (wordOfBytes hi lo) with
  | error e => rw [hd] at h; cases h
  | ok j => rw [hd] at h; cases h; rfl

/-- At an even PC inside memory, a word that decodes is the instruction fetched (R64). -/
theorem State.fetchDecode_of_decodeWord {s : State} {i : Instr} (heven : s.pc.toNat % 2 = 0) (hin : s.pc.toNat + 1 < 4096)
    (h : decodeWord s.fetchWord = .ok i) : s.fetchDecode = .ok i := by
  simp only [State.fetchDecode, State.fetch_ok heven hin, h]

/-- Settles O6: the fetch gives the word of the two bytes at PC, and a step is `exec` of what it decodes to. -/
theorem stepRunsDecodedInstruction : Obligations.StepRunsDecodedInstruction :=
  fun _ _ _ hrun heven hin h => step_of_ok hrun (State.fetchDecode_of_decodeWord heven hin (decodeWord_of_decode h))

/-! ### A word placed where the machine fetches -/

/-- `placeWord` leaves a PC from which a word can be fetched (log 6). -/
theorem State.placeWord_pc (s : State) (w : Word) : (s.placeWord w).pc.toNat % 2 = 0 ∧ (s.placeWord w).pc.toNat + 1 < 4096 := by
  unfold State.placeWord
  split
  next h =>
    obtain ⟨heven, hin⟩ := h
    exact ⟨(pc_even_iff _).1 heven, hin⟩
  next => exact (by decide : (0x200 : Word).toNat % 2 = 0 ∧ (0x200 : Word).toNat + 1 < 4096)

/-- The word placed is the word at PC (R49). -/
theorem State.placeWord_fetchWord (s : State) (w : Word) : (s.placeWord w).fetchWord = w := by
  have hread : ∀ k (hk : k < 2), (s.placeWord w).mem.read ((s.placeWord w).pc.toNat + k) = [highByte w, lowByte w][k] :=
    fun _ hk => Memory.read_writeBytes_offset _ _ hk
  calc (s.placeWord w).fetchWord = wordOfBytes (highByte w) (lowByte w) := congrArg₂ wordOfBytes (hread 0 (by decide)) (hread 1 (by decide))
    _ = w := wordOfBytes_high_low w

/-- Sixteen bits of the opcode table are a word. -/
theorem tableWord_sixteen {w : Nat} (h : w < 65536) : tableWord 16 w = BitVec.ofNat 16 w :=
  congrArg (BitVec.ofNat 16) (Nat.mod_eq_of_lt h)

/-- Settles O11: the placed word is fetched and decoded as it is. -/
theorem placedWordRunsNext : Obligations.PlacedWordRunsNext := by
  refine fun s w i hi hw => ⟨step_of_ok rfl ?_, rfl⟩
  obtain ⟨heven, hin⟩ := s.placeWord_pc (tableWord 16 w)
  refine State.fetchDecode_of_decodeWord heven hin ?_
  rw [State.withFetchWord, State.placeWord_fetchWord, tableWord_sixteen hw, hi]

/-- Settles O41: FX55 leaves V0 and V1 at the advanced PC (O38), and the next step runs the word they make (O6). -/
theorem storedCodeRunsNext : Obligations.StoredCodeRunsNext := by
  intro x s j hrun heven hi hin hx hfits hj
  obtain ⟨-, hstore, -⟩ := registerStore x s
  obtain ⟨t, hexec, hbytes, -, hframe, hpc⟩ := hstore hfits
  have hat : t.pc = s.i := hpc.trans hi.symm
  have hnum : s.i.toNat = s.pc.toNat + 2 := by bv_omega
  have hfirst : t.mem.read s.i.toNat = s.reg 0 := hbytes 0 (Nat.zero_le _)
  have hsecond : t.mem.read (s.i.toNat + 1) = s.reg 1 := hbytes 1 hx
  refine ⟨t, hexec, stepRunsDecodedInstruction t j [] ((hframe .run (by decide)).trans hrun) ?_ ?_ ?_⟩
  · rw [hat]; omega
  · rw [hat]; omega
  · rw [hat, hfirst, hsecond, hj]

/-! ### The fault table of R124 -/

/-- A completed instruction of a running machine takes no fault. -/
theorem Completes.safe {i : Instr} {s t : State} (h : Completes i s t) (hs : s.run = .running) : t.Safe := by
  rcases h.not_halted hs with ht | ⟨x, ht⟩ <;> rw [State.Safe, State.faultRecord, ht]

/-- Settles O10, by what an execute phase does where the table names a fault and where it names none. -/
theorem executeFaultsAreTheTable : Obligations.ExecuteFaultsAreTheTable := by
  intro i s hrun
  split
  next hfault => exact exec_of_executeFault_some hfault
  next hfault =>
    obtain ⟨t, hexec, hdone⟩ := exec_of_executeFault_none hfault
    exact ⟨t, hexec, hdone.safe hrun⟩

end Sys2Proof.Machine
end

section
/-! ## The canonical form of memory (log 8; spec/20_memory.md section 1) -/

namespace Sys2Proof.Machine

/-- Settles O53: the invariant's clause for memory (`step_memoryCanonical`). -/
theorem stepKeepsMemoryCanonical : Obligations.StepKeepsMemoryCanonical :=
  fun _ _ => step_memoryCanonical

/-- What a canonical memory lists is what its reads give: the bytes that differ from their reset contents. -/
theorem Memory.mem_iff_read {m : Memory} (hm : m.wf) {c : Host.Cell} : c ∈ m ↔ m.read c.1 = c.2 ∧ c.2 ≠ Memory.initial c.1 := by
  have hcells := hm.2
  refine ⟨fun hc => ⟨Memory.read_of_mem hm hc, (hcells c hc).2⟩, fun ⟨hread, hne⟩ => ?_⟩
  obtain ⟨d, hd, haddr⟩ : ∃ d ∈ m, d.1 = c.1 := by
    by_contra hnone
    exact hne (hread.symm.trans (Memory.read_of_not_mem fun d hd haddr => hnone ⟨d, hd, haddr⟩))
  have hbyte : d.2 = c.2 := by rw [← hread, ← haddr, Memory.read_of_mem hm hd]
  exact (Prod.ext haddr hbyte : d = c) ▸ hd

/-- Settles O43: canonical memories list the same bytes (`Memory.mem_iff_read`), and a list in rising order is given by its entries. -/
theorem canonicalMemoriesAreEqual : Obligations.CanonicalMemoriesAreEqual := by
  intro m n hm hn hread
  have : Std.Irrefl fun c d : Host.Cell => c.1 < d.1 := ⟨fun c => lt_irrefl c.1⟩
  have : Std.Antisymm fun c d : Host.Cell => c.1 < d.1 := ⟨fun _ _ h h' => absurd h' h.asymm⟩
  refine hm.1.eq_of_mem_iff hn.1 fun c => ?_
  rw [Memory.mem_iff_read hm, Memory.mem_iff_read hn, hread]

end Sys2Proof.Machine
end

section
/-! ## Who writes what (spec/10_state.md sections 1 to 8, spec/20_memory.md section 1) -/

namespace Sys2Proof.Machine

/-! ### The draw of CXNN -/

/-- The frame of CXNN: one destination, and the count of draws (R93; log 3). -/
theorem frame_draw8_setReg (s : State) (x : Nibble) (b : Byte) :
    RegsSameBut [x] s (s.advance.draw8.2.setReg x b) ∧ SameBut [.regs, .pc, .draws] s (s.advance.draw8.2.setReg x b) ∧
    (s.advance.draw8.2.setReg x b).pc = s.pc + 2 := by
  refine ⟨fun r hr => ?_, fun p hp => ?_, rfl⟩
  · rw [State.setReg_reg, if_neg (by simpa using hr)]
    rfl
  · cases p <;> simp at hp <;> simp [Part.Same]

/-- Settles O19: V[X] is the draw masked bit by bit, and `frame_draw8_setReg` gives the rest. -/
theorem randomByteIsMasked : Obligations.RandomByteIsMasked := by
  refine fun x nn s => ⟨decodeWord_encode (i := .rnd x nn) rfl, _, rfl, fun b => ?_, rfl, frame_draw8_setReg s x _⟩
  rw [State.setReg_reg_same, BitVec.getLsbD_and]
  rfl

/-! ### What a completed instruction writes -/

/-- The pieces of state that an instruction may change when it completes (R19, R21, R22, R25, R28 to R35, R45). -/
def changedParts : Instr → List Part
  | .sys _ | .jp _ | .jpV0 _ | .seByte _ _ | .sneByte _ _ | .seReg _ _ | .sneReg _ _ | .skp _ | .sknp _ => [.pc]
  | .ret | .call _ => [.pc, .stack]
  | .cls => [.screen, .pc]
  | .drw _ _ _ => [.regs, .screen, .pc]
  | .ldByte _ _ | .addByte _ _ | .ldReg _ _ | .orReg _ _ | .andReg _ _ | .xorReg _ _ => [.regs, .pc]
  | .addReg _ _ | .subReg _ _ | .shr _ _ | .subnReg _ _ | .shl _ _ | .ldVxDt _ | .loadRegs _ => [.regs, .pc]
  | .rnd _ _ => [.regs, .pc, .draws]
  | .ldI _ | .addIVx _ | .ldFVx _ => [.index, .pc]
  | .ldBVx _ | .storeRegs _ => [.memory, .pc]
  | .ldDtVx _ => [.dt, .pc]
  | .ldStVx _ => [.st, .pc]
  | .ldVxK _ => [.run, .pc]

/-- From `s` to `t`, the completed instruction `i` writes its own registers, its own pieces of state, and PC with a + 2 but where it transfers
control. -/
structure WritesOwn (i : Instr) (s t : State) : Prop where
  regs : ∀ r, writesReg r i = false → (writesFlag i = false ∨ r ≠ 0xF) → t.reg r = s.reg r
  parts : SameBut (changedParts i) s t
  pc : transfersControl i = false → t.pc = s.pc + 2

theorem WritesOwn.of_next {i : Instr} {s t u : State} (h : (.next u : Host.Outcome State Fault Refusal) = .next t) (hu : WritesOwn i s u) :
    WritesOwn i s t :=
  Host.Outcome.next.inj h ▸ hu

/-- An instruction that writes no register. -/
theorem WritesOwn.of_parts {i : Instr} {s t : State} (hparts : SameBut (changedParts i) s t)
    (hpc : transfersControl i = false → t.pc = s.pc + 2) (hregs : Part.regs ∉ changedParts i := by simp [changedParts]) :
    WritesOwn i s t :=
  ⟨fun r _ _ => hparts .regs hregs r, hparts, hpc⟩

/-- An instruction with V[X] as its destination, and no flag. -/
theorem WritesOwn.of_destination {i : Instr} {s t : State} {x : Nibble} (hx : ∀ r, writesReg r i = (x == r))
    (h : RegsSameBut [x] s t ∧ SameBut (changedParts i) s t ∧ t.pc = s.pc + 2) : WritesOwn i s t := by
  obtain ⟨hregs, hparts, hpc⟩ := h
  refine ⟨fun r hr _ => hregs r ?_, hparts, fun _ => hpc⟩
  rw [hx, beq_eq_false_iff_ne] at hr
  simpa using hr.symm

/-- An instruction with V[X] as its destination that writes VF as a flag. -/
theorem WritesOwn.of_flag_destination {i : Instr} {s t : State} {x : Nibble} (hx : ∀ r, writesReg r i = (x == r)) (hflag : writesFlag i = true)
    (h : RegsSameBut [x, 0xF] s t ∧ SameBut (changedParts i) s t ∧ t.pc = s.pc + 2) : WritesOwn i s t := by
  obtain ⟨hregs, hparts, hpc⟩ := h
  refine ⟨fun r hr hf => hregs r ?_, hparts, fun _ => hpc⟩
  rw [hx, beq_eq_false_iff_ne] at hr
  simpa [hflag, hr.symm] using hf

/-- Where the table of R124 names no fault, an instruction writes what is its own: the frames of the instructions together. -/
theorem writesOwn_of_exec {i : Instr} {s t : State} (hfault : executeFault i s = none) (h : exec i s = .next t) : WritesOwn i s t := by
  cases i with
  | ret =>
    have hsp : s.sp ≠ 0 := by simpa [executeFault] using hfault
    obtain ⟨u, hexec, hret⟩ := exec_ret_of_nonempty (Nat.pos_of_ne_zero fun h0 => hsp (Fin.ext h0))
    exact .of_next (hexec.symm.trans h) (.of_parts hret.frame nofun)
  | call nnn =>
    have hsp : s.sp ≠ 16 := by simpa [executeFault] using hfault
    obtain ⟨u, hexec, hcall⟩ := exec_call_of_room nnn (Nat.lt_of_le_of_ne (Nat.le_of_lt_succ s.sp.isLt) fun h16 => hsp (Fin.ext h16))
    exact .of_next (hexec.symm.trans h) (.of_parts hcall.frame nofun)
  | drw x y n =>
    have hfits := rangeFault_none.1 (Option.map_eq_none_iff.1 (executeFault_drw x y n s ▸ hfault))
    obtain ⟨u, hexec, -, hregs, hparts, hpc⟩ := exec_drw_of_fits (x := x) (y := y) hfits
    exact .of_next (hexec.symm.trans h) ⟨fun r _ hf => hregs r (by simpa [writesFlag] using hf), hparts, fun _ => hpc⟩
  | ldBVx x =>
    have hfits : s.i.toNat + 2 < 4096 := by simp [executeFault] at hfault; omega
    exact .of_next ((exec_ldBVx_of_fits hfits).symm.trans h) (.of_parts (frame_mem s _) fun _ => rfl)
  | storeRegs x =>
    have hfits : s.i.toNat + x.toNat < 4096 := by simpa [executeFault] using hfault
    exact .of_next ((exec_storeRegs_of_fits hfits).symm.trans h) (.of_parts (frame_mem s _) fun _ => rfl)
  | loadRegs x =>
    have hfits : s.i.toNat + x.toNat < 4096 := by simpa [executeFault] using hfault
    obtain ⟨-, hload, -⟩ := registerLoad x s
    obtain ⟨u, hexec, hregs, hparts, hpc⟩ := hload hfits
    refine .of_next (hexec.symm.trans h) ⟨fun r hr _ => ?_, hparts, fun _ => hpc⟩
    rw [hregs, if_neg (of_decide_eq_false hr)]
  | skp x =>
    obtain ⟨k, hdigit⟩ := exists_digitOf (b := s.reg x) (by simpa [executeFault] using hfault)
    exact .of_next ((exec_skp_of_digit (digitOf_some.1 hdigit)).symm.trans h) (.of_parts (frame_skipIf s _) nofun)
  | sknp x =>
    obtain ⟨k, hdigit⟩ := exists_digitOf (b := s.reg x) (by simpa [executeFault] using hfault)
    exact .of_next ((exec_sknp_of_digit (digitOf_some.1 hdigit)).symm.trans h) (.of_parts (frame_skipIf s _) nofun)
  | ldFVx x =>
    obtain ⟨k, hdigit⟩ := exists_digitOf (b := s.reg x) (by simpa [executeFault] using hfault)
    exact .of_next ((exec_ldFVx_of_digit (digitOf_some.1 hdigit)).symm.trans h)
      (.of_parts (frame_index s _) fun _ => rfl)
  | seByte | sneByte | seReg | sneReg => exact .of_next h (.of_parts (frame_skipIf s _) nofun)
  | jp | jpV0 => exact .of_next h (.of_parts (frame_pc s _) nofun)
  | sys => exact .of_next h (.of_parts (frame_pc s _) fun _ => rfl)
  | cls => exact .of_next h (.of_parts (frame_screen s _) fun _ => rfl)
  | ldI | addIVx => exact .of_next h (.of_parts (frame_index s _) fun _ => rfl)
  | ldDtVx => exact .of_next h (.of_parts (frame_dt s _) fun _ => rfl)
  | ldStVx => exact .of_next h (.of_parts (frame_st s _) fun _ => rfl)
  | ldVxK => exact .of_next h (.of_parts (frame_run s _) fun _ => rfl)
  | rnd => exact .of_next h (.of_destination (fun _ => rfl) (frame_draw8_setReg s _ _))
  | addReg | subReg | shr | subnReg | shl => exact .of_next h (.of_flag_destination (fun _ => rfl) rfl (frame_setFlagThenReg s _ _ _))
  | ldByte | addByte | ldReg | orReg | andReg | xorReg | ldVxDt =>
    exact .of_next h (.of_destination (fun _ => rfl) (frame_setReg s _ _))

/-! ### The writers of each piece of state, from the table `changedParts` -/

section
variable {i : Instr}

theorem index_not_mem_changedParts (hldI : ∀ nnn, i ≠ .ldI nnn) (hx : ∀ x, i ≠ .addIVx x ∧ i ≠ .ldFVx x) : Part.index ∉ changedParts i := by
  cases i <;> simp_all [changedParts]

theorem stack_not_mem_changedParts (hret : i ≠ .ret) (hcall : ∀ nnn, i ≠ .call nnn) : Part.stack ∉ changedParts i := by
  cases i <;> simp_all [changedParts]

theorem dt_not_mem_changedParts (h : ∀ x, i ≠ .ldDtVx x) : Part.dt ∉ changedParts i := by
  cases i <;> simp_all [changedParts]

theorem st_not_mem_changedParts (h : ∀ x, i ≠ .ldStVx x) : Part.st ∉ changedParts i := by
  cases i <;> simp_all [changedParts]

theorem screen_not_mem_changedParts (hcls : i ≠ .cls) (hdrw : ∀ x y n, i ≠ .drw x y n) : Part.screen ∉ changedParts i := by
  cases i <;> simp_all [changedParts]

theorem memory_not_mem_changedParts (h : ∀ x, i ≠ .ldBVx x ∧ i ≠ .storeRegs x) : Part.memory ∉ changedParts i := by
  cases i <;> simp_all [changedParts]

theorem keys_not_mem_changedParts : Part.keys ∉ changedParts i := by
  cases i <;> simp [changedParts]

theorem run_not_mem_changedParts (h : ∀ x, i ≠ .ldVxK x) : Part.run ∉ changedParts i := by
  cases i <;> simp_all [changedParts]

end

/-- Settles O13: a fault writes the run state alone (R125), and a completed instruction what is its own. -/
theorem writersOfEachPartAreThese : Obligations.WritersOfEachPartAreThese := by
  intro i s t h
  cases hfault : executeFault i s with
  | some f =>
    obtain rfl := Host.Outcome.next.inj ((exec_of_executeFault_some hfault).symm.trans h)
    exact ⟨fun _ _ _ => rfl, fun _ _ => rfl, fun _ _ => ⟨rfl, rfl⟩, fun _ => rfl, fun _ => rfl, fun _ _ _ _ => rfl, fun _ _ => rfl,
      fun _ => rfl, fun _ => .inr ⟨_, rfl⟩, fun _ => .inr ⟨rfl, _, rfl⟩⟩
  | none =>
    obtain ⟨hregs, hparts, hpc⟩ := writesOwn_of_exec hfault h
    exact ⟨hregs,
      fun hldI hx => hparts .index (index_not_mem_changedParts hldI hx),
      fun hret hcall => hparts .stack (stack_not_mem_changedParts hret hcall),
      fun hdt => hparts .dt (dt_not_mem_changedParts hdt),
      fun hst => hparts .st (st_not_mem_changedParts hst),
      fun hcls hdrw => hparts .screen (screen_not_mem_changedParts hcls hdrw),
      fun hmem => hparts .memory (memory_not_mem_changedParts hmem),
      hparts .keys keys_not_mem_changedParts,
      fun hwait => .inl (hparts .run (run_not_mem_changedParts hwait)),
      fun htransfer => .inl (hpc htransfer)⟩

/-- Settles O12: the clause of O13 for registers, at VF. -/
theorem flagWritersAreThese : Obligations.FlagWritersAreThese := by
  intro i s t h hflag hreg
  obtain ⟨hregs, -⟩ := writersOfEachPartAreThese i s t h
  exact hregs 0xF hreg (.inl hflag)

end Sys2Proof.Machine
end
